-- ==== Sys2Proof/Word.lean ====
section
/-! DEFINITION. The widths of the spec (00_scope.md R8, R11): every value is an unsigned number of a stated width. -/

namespace Sys2Proof

/-- One byte: the unit of every buffer, descriptor and frame (R57, R71). -/
abbrev Byte := BitVec 8

/-- A 16-bit value: a PAN identifier, a short address, a length or an offset (R8, R72). -/
abbrev Half := BitVec 16

/-- A 64-bit tick value: a clock draw, a transmit instant, or the container of a 40-bit timestamp (R8, R120). -/
abbrev Tick := BitVec 64

end Sys2Proof
end

