-- ==== Sys2Proof/Syntax.lean ====
section
/-! DEFINITION. The command set (30_encoding.md R72): one constructor per row of the opcode table. -/

namespace Sys2Proof

/-- A command with its operands (R70, R72). The attached buffer is no operand: it comes with the delivery (R70). -/
inductive Instr where
  /-- INIT, opcode 0x01 (42_ranging.md R131). -/
  | init (panId address : Half)
  /-- ENCAP, opcode 0x02 (40_frame_codec.md R100). -/
  | encap (panId src dst : Half) (seq : Byte) (payloadLen : Half)
  /-- DECAP, opcode 0x03 (40_frame_codec.md R106). -/
  | decap (frameLen : Half)
  /-- PREP_ADV, opcode 0x04 (42_ranging.md R132). -/
  | prepAdv (txTimestamp : Tick)
  /-- SEND_ADV, opcode 0x05 (42_ranging.md R133). -/
  | sendAdv
  /-- PROCESS_RX, opcode 0x06 (42_ranging.md R135). -/
  | processRx (frameLen : Half) (rxTimestamp : Tick)
  /-- TS_WRITE, opcode 0x07 (41_timestamp.md R123). -/
  | tsWrite (offset : Half) (ts : Tick)
  /-- TS_READ, opcode 0x08 (41_timestamp.md R124). -/
  | tsRead (offset : Half)
deriving DecidableEq, Repr

end Sys2Proof
end

