-- ==== Sys2Proof/WellFormed.lean ====
section
/-! DEFINITION. Which descriptors are legal (30_encoding.md R72, R74), written as the opcode map's rows and
independently of the decoder. Every operand value is legal (R74), so a term of `Instr`, whose operands have
the spec's widths, has nothing left to check: the checks are on the bytes and the attachment. -/

namespace Sys2Proof

/-- One row of the opcode map (R72): opcode byte, descriptor length, whether a buffer must be attached. -/
structure OpcodeRow where
  opcode : Byte
  length : Nat
  buffer : Bool
deriving DecidableEq, Repr

/-- The opcode map of R72, row by row. -/
def opcodeMap : List OpcodeRow :=
  [ { opcode := 0x01, length := 5, buffer := false },   -- INIT
    { opcode := 0x02, length := 10, buffer := true },   -- ENCAP
    { opcode := 0x03, length := 3, buffer := true },    -- DECAP
    { opcode := 0x04, length := 9, buffer := true },    -- PREP_ADV
    { opcode := 0x05, length := 1, buffer := true },    -- SEND_ADV
    { opcode := 0x06, length := 11, buffer := true },   -- PROCESS_RX
    { opcode := 0x07, length := 11, buffer := true },   -- TS_WRITE
    { opcode := 0x08, length := 3, buffer := true } ]   -- TS_READ

/-- The row of a descriptor's opcode byte, if its opcode is legal (R74 case 1). -/
def opcodeRow (d : List Byte) : Option OpcodeRow :=
  opcodeMap.find? fun r => d.head? == some r.opcode

/-- R74 case 1: the opcode is 0x01 to 0x08. -/
def opcodeLegal (d : List Byte) : Bool :=
  (opcodeRow d).isSome

/-- R74 case 2: the length is that of the opcode. -/
def lengthLegal (d : List Byte) : Bool :=
  (opcodeRow d).any fun r => d.length == r.length

/-- R74 case 3: an opcode that needs a buffer has one attached. -/
def bufferLegal (d : List Byte) (attached : Bool) : Bool :=
  (opcodeRow d).any fun r => !r.buffer || attached

/-- A legal descriptor (R74): legal opcode and the length of that opcode. -/
def descriptorLegal (d : List Byte) : Bool :=
  opcodeLegal d && lengthLegal d

/-- A legal command (R74): a legal descriptor with a buffer where the opcode needs one. -/
def commandLegal (d : List Byte) (attached : Bool) : Bool :=
  descriptorLegal d && bufferLegal d attached

end Sys2Proof
end

