-- ==== Sys2Proof/Decode.lean ====
section
/-! DEFINITION. The descriptor decoder (30_encoding.md R70 to R74), total on any bytes, and the encoder written
from the same map. -/

namespace Sys2Proof

/-- Why the decoder refuses a descriptor (R74 cases 1 and 2; case 3 is about the attachment, not the bytes). -/
inductive DecodeError where
  | badOpcode
  | badLength
deriving DecidableEq, Repr

/-- The value of a little-endian byte sequence, `sum D[k+i] * 256^i` (R73). -/
def leNat : List Byte → Nat
  | [] => 0
  | b :: bs => b.toNat + 256 * leNat bs

/-- The `n` little-endian bytes of a number, low byte first (R71). -/
def leBytes : Nat → Nat → List Byte
  | 0, _ => []
  | n + 1, v => BitVec.ofNat 8 v :: leBytes n (v / 256)

/-- The operand in descriptor bytes `[k .. k+n-1]`, zero-extended to `w` bits (R73). -/
def operand (w : Nat) (d : List Byte) (k n : Nat) : BitVec w :=
  BitVec.ofNat w (leNat ((d.drop k).take n))

/-- R74 case 2: the descriptor is exactly `L` bytes long, or it is refused. -/
def ofLength (d : List Byte) (L : Nat) (i : Instr) : Except DecodeError Instr :=
  if d.length = L then .ok i else .error .badLength

/-- The decoder (R72 to R74). The opcode is tested before the length (R167). An empty descriptor has no opcode
byte; it is refused for its length (log 9, DESIGN CHOICE). -/
def decode (d : List Byte) : Except DecodeError Instr :=
  match d with
  | [] => .error .badLength
  | opc :: _ =>
    match opc.toNat with
    | 1 => ofLength d 5 (.init (operand 16 d 1 2) (operand 16 d 3 2))
    | 2 => ofLength d 10 (.encap (operand 16 d 1 2) (operand 16 d 3 2) (operand 16 d 5 2) (operand 8 d 7 1)
        (operand 16 d 8 2))
    | 3 => ofLength d 3 (.decap (operand 16 d 1 2))
    | 4 => ofLength d 9 (.prepAdv (operand 64 d 1 8))
    | 5 => ofLength d 1 .sendAdv
    | 6 => ofLength d 11 (.processRx (operand 16 d 1 2) (operand 64 d 3 8))
    | 7 => ofLength d 11 (.tsWrite (operand 16 d 1 2) (operand 64 d 3 8))
    | 8 => ofLength d 3 (.tsRead (operand 16 d 1 2))
    | _ => .error .badOpcode

/-- The descriptor of a command (R71, R72): its opcode byte, then each operand, little-endian. -/
def encode : Instr → List Byte
  | .init panId address => 0x01 :: (leBytes 2 panId.toNat ++ leBytes 2 address.toNat)
  | .encap panId src dst seq payloadLen =>
      0x02 :: (leBytes 2 panId.toNat ++ leBytes 2 src.toNat ++ leBytes 2 dst.toNat ++ leBytes 1 seq.toNat
        ++ leBytes 2 payloadLen.toNat)
  | .decap frameLen => 0x03 :: leBytes 2 frameLen.toNat
  | .prepAdv txTimestamp => 0x04 :: leBytes 8 txTimestamp.toNat
  | .sendAdv => [0x05]
  | .processRx frameLen rxTimestamp => 0x06 :: (leBytes 2 frameLen.toNat ++ leBytes 8 rxTimestamp.toNat)
  | .tsWrite offset ts => 0x07 :: (leBytes 2 offset.toNat ++ leBytes 8 ts.toNat)
  | .tsRead offset => 0x08 :: leBytes 2 offset.toNat

/-- Whether the opcode of a command needs an attached buffer (R72): every one but INIT. -/
def Instr.needsBuffer : Instr → Bool
  | .init _ _ => false
  | .encap _ _ _ _ _ => true
  | .decap _ => true
  | .prepAdv _ => true
  | .sendAdv => true
  | .processRx _ _ => true
  | .tsWrite _ _ => true
  | .tsRead _ => true

/-- The descriptor length `L` of an opcode byte (R72); 1 for an illegal opcode. -/
def descriptorLength (opc : Nat) : Nat :=
  match opc with
  | 1 => 5
  | 2 => 10
  | 3 => 3
  | 4 => 9
  | 5 => 1
  | 6 => 11
  | 7 => 11
  | 8 => 3
  | _ => 1

/-- The descriptor whose bits are `w`, bit 0 the least significant bit of the first byte: `nbits` bits of `w`,
and zero bytes up to the length of its opcode. -/
def tableBytes (nbits w : Nat) : List Byte :=
  leBytes (max (nbits / 8) (descriptorLength (w % 2 ^ nbits % 256))) (w % 2 ^ nbits)

/-- The command the decoder reads from the bits of an opcode-table word. -/
def decodeTableWord (nbits w : Nat) : Option Instr :=
  (decode (tableBytes nbits w)).toOption

end Sys2Proof
end

