-- ==== Sys2Proof/Config.lean ====
section
/-! DEFINITION. Configuration: the hardwired constants (10_state.md R26), the parameters of one block (R9, R27, R28),
and the free values the spec calls draws (R15, R108, R143, R173). -/

namespace Sys2Proof

namespace Config

/-- Frame-control low byte (R26). -/
def FC0 : Byte := 0x41
/-- Frame-control high byte (R26). -/
def FC1 : Byte := 0x88
/-- Header length in bytes (R26). -/
def HDR_LEN : Nat := 9
/-- Trailer length in bytes (R26). -/
def TRL_LEN : Nat := 2
/-- The smallest frame, `HDR_LEN + TRL_LEN` (R26). -/
def MIN_FRAME_LEN : Nat := 11
/-- Length of a timestamp field in bytes (R26). -/
def TS_LEN : Nat := 5
/-- The broadcast address, all bits set (R26). -/
def BROADCAST : Half := 0xFFFF
/-- Payload length of an advertisement (R26). -/
def ADV_PAYLOAD_LEN : Nat := 5
/-- Payload length of a reply (R26). -/
def REPLY_PAYLOAD_LEN : Nat := 15
/-- Frame length of an advertisement, `9 + 5 + 2` (R26). -/
def ADV_FRAME_LEN : Nat := 16
/-- Frame length of a reply, `9 + 15 + 2` (R26). -/
def REPLY_FRAME_LEN : Nat := 26
/-- The fixed sequence number of a reply (R26). -/
def REPLY_SEQ : Byte := 1

/-- `freeByte source n`: the value of the `n`-th unspecified byte that the block with draw source `source` takes (R15
`draw_byte`, R108, R143). Nothing constrains it, and nothing relates one source to another (log 8). -/
opaque freeByte : Nat → Nat → Byte

/-- `freeClock source n`: the value of a clock read for which the environment has no value ready (R173), by draw source
and count. Nothing constrains it, so the clocks of blocks with different sources are independent (R176; log 7). -/
opaque freeClock : Nat → Nat → Tick

end Config

/-- The parameter `SEQ_ADVANCE` (R28, D17): whether SEND_ADV advances the sequence counter. -/
inductive SeqAdvance where
  | never
  | onSendAdv
deriving DecidableEq, Repr

/-- The parameter `TS_ARITH` (R28, D18): the width at which a scheduled instant wraps. -/
inductive TsArith where
  | wrap40
  | wrap64
deriving DecidableEq, Repr

/-- The parameters fixed for the life of one block (R9, R27, R28). `replyScheduleDelay` has 40 bits: the
spec's bound `< 2^40` (R27, D26) is its type. -/
structure Params where
  replyScheduleDelay : BitVec 40
  seqAdvance : SeqAdvance
  tsArith : TsArith
deriving DecidableEq, Repr

/-- The reference values of R9: 1000 ticks, `NEVER`, `WRAP40`. -/
def Params.reference : Params :=
  { replyScheduleDelay := 1000, seqAdvance := .never, tsArith := .wrap40 }

end Sys2Proof
end

