-- ==== Sys2Proof/Machine/State.lean ====
section
/-! DEFINITION. The state of one block (10_state.md R20 to R37), the caller memory it works on (20_memory.md R50),
and what the host and the clock have ready for it. Plain data. -/

namespace Sys2Proof.Machine

/-- The handler registers `HR` (R22 to R25). While `initDone` is false the other three hold no value in the
spec's sense: a command that would read them raises NOT_INITIALISED (`requireInit` of Ops.lean, R22), and a read from
outside a command faults (`readPanId`, `readAddr`, `readSeq`, R190; log 2). -/
structure Handler where
  /-- `PAN_ID` (R22). -/
  panId : Half
  /-- `ADDR` (R23). -/
  addr : Half
  /-- `SEQ` (R24). -/
  seq : Byte
  /-- `INIT_DONE` (R25): the control state is READY when true, UNINIT when false (R140). -/
  initDone : Bool
deriving DecidableEq, Repr

/-- The result record `RES` (R30). `none` is the spec's own "holds no value" (R31): every command replaces the
whole record and leaves every field it does not list without a value (log 3). -/
structure Result where
  status : Option Byte
  cause : Option Byte
  frameLen : Option Half
  panId : Option Half
  src : Option Half
  dst : Option Half
  seq : Option Byte
  payloadLen : Option Half
  ts : Option Tick
deriving DecidableEq, Repr

/-- The record in which no field holds a value: `RES` after reset (R37, R190). -/
def Result.empty : Result :=
  { status := none, cause := none, frameLen := none, panId := none, src := none, dst := none, seq := none,
    payloadLen := none, ts := none }

/-- A transmit event `Tx(instant, bytes, len)` (R33). -/
structure TxEvent where
  instant : Tick
  bytes : List Byte
  len : Half
deriving DecidableEq, Repr

/-- Bytes by address, in one canonical form: addresses strictly rising, no entry equal to what an unlisted
address reads as (`Memory.unlisted` and `Memory.wf` of Ops.lean; log 5). -/
abbrev Memory := List Host.Cell

/-- The buffer attached to a command (R50, R70): which of the host's buffers, and its length `cap`, 0 to 65535. -/
structure Attachment where
  buffer : Nat
  cap : Half
deriving DecidableEq, Repr

/-- A byte array inside a memory: where it starts and how many bytes it has. The attached buffer is one, and so
is `RBUF` (R13, R50). -/
structure Region where
  base : Nat
  cap : Nat
deriving DecidableEq, Repr

/-- One command as the host issues it (R70): what the host wrote into its own memory since the previous command
returned (R175), the descriptor, and the attached buffer if any (log 6). -/
structure Command where
  stores : List Host.Cell
  desc : List Byte
  attach : Option Attachment
deriving DecidableEq, Repr

/-- What the host does next: it issues one command, or, against R172, two at the same time (log 10). -/
inductive Delivery where
  | command (c : Command)
  | overlapping (c d : Command)
deriving DecidableEq, Repr

/-- The state of one block and of what it reaches. -/
structure State where
  /-- The handler registers `HR` (R20). -/
  hr : Handler
  /-- The result record `RES` of the last command (R30). -/
  res : Result
  /-- The reply staging buffer `RBUF`, bytes 0 to 25 (R32). -/
  rbuf : Memory
  /-- `TXLOG`, oldest event first (R33). -/
  txLog : List TxEvent
  /-- `CLKLOG`, oldest draw first (R34). -/
  clkLog : List Tick
  /-- The parameters of this block: fixed, no command reads them back or writes them (R27, R28; log 1). -/
  params : Params
  /-- Caller memory: the host's buffers (R50; log 5). -/
  mem : Memory
  /-- The buffer attached to the command being executed (R70); none between commands (R53). -/
  att : Option Attachment
  /-- The commands the host has yet to issue, next one first (R29; log 6). -/
  inbox : List Delivery
  /-- The clock values the environment has ready, next one first (R173; log 7). -/
  clockIn : List Tick
  /-- Which source of free values this block draws from: the model's own, so that the draws of different blocks are
  independent (R9, R176; log 8). No step changes it. -/
  drawSource : Nat
  /-- How many free values this block has taken: the model's own counter (log 8). -/
  drawCount : Nat
deriving DecidableEq, Repr

/-- The registers and result fields that can hold no value (R31, R190). -/
inductive Field where
  | panId
  | addr
  | seq
  | resStatus
  | resCause
  | resFrameLen
  | resPanId
  | resSrc
  | resDst
  | resSeq
  | resPayloadLen
  | resTs
deriving DecidableEq, Repr

/-- Why the machine stops. No command ever stops it: U-table of 93_implementation_defined.md, "No behaviour of the
block is treated as stuck". -/
inductive Fault where
  /-- Raised by `readHeld` of Ops.lean alone, a read from outside the commands of a register or result field that holds no
  value, as R190 ("A model faults a read of a register that holds no value") and R31 ("A model must fault a read of such a
  field") say. No command answers it. Safe: the model stops where the spec says that a model faults. -/
  | noValue (f : Field)
  /-- Raised by a memory primitive called outside `[0, cap)` (R13, "a model fault and not a hardware outcome"); no
  command reaches it. Safe: the model stops. -/
  | accessOutsideBuffer
deriving DecidableEq, Repr

/-- Why the machine has no meaning for what it is given. -/
inductive Refusal where
  /-- Raised by an arm of `exec` for an instruction without a meaning; no arm raises it. Safe: the model stops. -/
  | notModelled (mnemonic : String)
  /-- Raised by `step` when the host issues two commands at the same time (R172, R194: "A model refuses it").
  Safe: such an interleaving is not a run. -/
  | overlappingCommands
deriving DecidableEq, Repr

/-- The state right after creation with parameters `p` (R190): `INIT_DONE` 0, `RES` without values, both logs
empty. The three identity registers and `RBUF` hold no value in the spec; their fields hold zeros that no
command reads (logs 2 and 4). It draws from source 0; `System.create` gives each block its own (log 8). -/
def State.create (p : Params) : State :=
  { hr := { panId := 0, addr := 0, seq := 0, initDone := false }
    res := Result.empty
    rbuf := []
    txLog := []
    clkLog := []
    params := p
    mem := []
    att := none
    inbox := []
    clockIn := []
    drawSource := 0
    drawCount := 0 }

/-- Reset is the creation of the block (R190, D36), here with the reference parameters of R9 (log 1). -/
def State.reset : State :=
  State.create Params.reference

end Sys2Proof.Machine
end

