-- ==== Sys2Proof/Machine/Flags.lean ====
section
/-! DEFINITION. The outcome indicators: the block has no flags (10_state.md R35); a command's outcome is the status
and cause of its result record (60_exceptions.md R161), and the record it leaves (R30, R31). -/

namespace Sys2Proof.Machine

/-- The names of the error statuses (R161). -/
inductive Status where
  | malformedFrame
  | bufferOverflow
  | notInitialised
  | illegalCommand
deriving DecidableEq, Repr

/-- The names of the error causes (R161). -/
inductive Cause where
  | shortFrame
  | badFrameControl
  | frameExceedsBuffer
  | lenExceedsBuffer
  | fieldExceedsBuffer
  | handlerUninitialised
  | badOpcode
  | badLength
  | noBuffer
deriving DecidableEq, Repr

/-- `RES.STATUS` of a command that completes, a drop included (R161). -/
def statusOk : Byte := 0x00

/-- `RES.CAUSE` of a command that completes (R161). -/
def causeNone : Byte := 0x00

/-- The status code of an error (R161). -/
def statusCode : Status → Byte
  | .malformedFrame => 0x01
  | .bufferOverflow => 0x02
  | .notInitialised => 0x03
  | .illegalCommand => 0x04

/-- The cause code of an error (R161). -/
def causeCode : Cause → Byte
  | .shortFrame => 0x01
  | .badFrameControl => 0x02
  | .frameExceedsBuffer => 0x03
  | .lenExceedsBuffer => 0x04
  | .fieldExceedsBuffer => 0x05
  | .handlerUninitialised => 0x06
  | .badOpcode => 0x07
  | .badLength => 0x08
  | .noBuffer => 0x09

/-- The record of a command that completes and produces no field (R30, R31). -/
def okResult : Result :=
  { Result.empty with status := some statusOk, cause := some causeNone }

/-- The record of a command that raises: only STATUS and CAUSE hold a value (R31, R168). -/
def errorResult (st : Status) (c : Cause) : Result :=
  { Result.empty with status := some (statusCode st), cause := some (causeCode c) }

/-- The value a field of the record holds, zero-extended to 64 bits; `none` where it holds no value (R30, R31).
The handler registers are no fields of it: the host cannot read them (R22, R23, R25). -/
def resultField (r : Result) : Field → Option Tick
  | .resStatus => r.status.map (BitVec.setWidth 64)
  | .resCause => r.cause.map (BitVec.setWidth 64)
  | .resFrameLen => r.frameLen.map (BitVec.setWidth 64)
  | .resPanId => r.panId.map (BitVec.setWidth 64)
  | .resSrc => r.src.map (BitVec.setWidth 64)
  | .resDst => r.dst.map (BitVec.setWidth 64)
  | .resSeq => r.seq.map (BitVec.setWidth 64)
  | .resPayloadLen => r.payloadLen.map (BitVec.setWidth 64)
  | .resTs => r.ts
  | .panId => none
  | .addr => none
  | .seq => none

end Sys2Proof.Machine
end

