-- ==== Sys2Proof/Machine/Operands.lean ====
section
/-! DEFINITION. The field codecs (00_scope.md R14, 20_memory.md R54, R55), the timestamp codec (41_timestamp.md R121,
R122) and the arithmetic on operands: the scheduled instant (R126) and the sequence step (R134). -/

namespace Sys2Proof.Machine

/-- `le16`: the value of two bytes, the one at the lower offset least significant (R14, R54). -/
def le16 (b0 b1 : Byte) : Half :=
  BitVec.ofNat 16 (b0.toNat + 256 * b1.toNat)

/-- The two bytes `put_le16` writes: `v[7:0]`, then `v[15:8]` (R14, R54). -/
def le16Bytes (v : Half) : List Byte :=
  [v.extractLsb' 0 8, v.extractLsb' 8 8]

/-- `ts_bytes`: bits 39:0, most-significant byte first; bits 63:40 are not encoded (R121). -/
def tsBytes (t : Tick) : List Byte :=
  [t.extractLsb' 32 8, t.extractLsb' 24 8, t.extractLsb' 16 8, t.extractLsb' 8 8, t.extractLsb' 0 8]

/-- The unsigned value of a byte sequence, most-significant byte first (R55). -/
def beNat (s : List Byte) : Nat :=
  s.foldl (fun acc b => acc * 256 + b.toNat) 0

/-- `ts_value`: the value of a 5-byte big-endian field in a 64-bit container (R122). -/
def tsValue (s : List Byte) : Tick :=
  BitVec.ofNat 64 (beNat s)

/-- `ts_add`: the scheduled instant `t + d`, wrapped at 40 or at 64 bits (R126). -/
def tsAdd (mode : TsArith) (t : Tick) (d : BitVec 40) : Tick :=
  match mode with
  | .wrap40 => BitVec.ofNat 64 ((t.toNat + d.toNat) % 2 ^ 40)
  | .wrap64 => BitVec.ofNat 64 ((t.toNat + d.toNat) % 2 ^ 64)

/-- The sequence counter after a successful SEND_ADV: unchanged, or `(SEQ + 1) mod 256` (R134). -/
def seqStep (mode : SeqAdvance) (seq : Byte) : Byte :=
  match mode with
  | .never => seq
  | .onSendAdv => BitVec.ofNat 8 ((seq.toNat + 1) % 256)

end Sys2Proof.Machine
end

