-- ==== Sys2Proof/Machine/Ops.lean ====
section
/-! DEFINITION. The shared operations: memory and its primitives (00_scope.md R13, R14; 20_memory.md R50, R51, R60),
the reads of registers and fields (10_state.md R22 to R25, R31), the outcome primitives (R15): raising an error (60_exceptions.md
R168), completing, the two external devices (R173, R174), and taking a command from the host (R172). -/

namespace Sys2Proof.Machine

/-! ### Memory: bytes by address in one canonical form (log 5) -/

/-- What an address that is not listed reads as (log 5, DESIGN CHOICE). -/
def Memory.unlisted : Byte := 0x00

/-- The canonical form: addresses strictly rising, and no entry equal to what an unlisted address reads as. -/
abbrev Memory.wf (m : Memory) : Prop :=
  m.Pairwise (fun c d => c.1 < d.1) ∧ ∀ c ∈ m, c.2 ≠ Memory.unlisted

/-- The byte at an address. -/
def Memory.read : Memory → Nat → Byte
  | [], _ => Memory.unlisted
  | (b, v) :: m, a => if b = a then v else Memory.read m a

/-- The memory without any entry for `a`. -/
def Memory.erase (m : Memory) (a : Nat) : Memory :=
  m.filter fun c => c.1 != a

/-- The memory with an entry for `a` before the first higher address. -/
def Memory.insert : Memory → Nat → Byte → Memory
  | [], a, v => [(a, v)]
  | c :: m, a, v => if c.1 < a then c :: Memory.insert m a v else (a, v) :: c :: m

/-- Write one byte. Writing what an unlisted address reads as leaves no entry, so equal memories are equal lists. -/
def Memory.write (m : Memory) (a : Nat) (v : Byte) : Memory :=
  if v = Memory.unlisted then Memory.erase m a else Memory.insert (Memory.erase m a) a v

/-- The `n` bytes from address `a` on, lowest first. -/
def Memory.readBytes (m : Memory) : Nat → Nat → List Byte
  | _, 0 => []
  | a, n + 1 => Memory.read m a :: Memory.readBytes m (a + 1) n

/-- Write a byte sequence from address `a` on, lowest first. -/
def Memory.writeBytes (m : Memory) : Nat → List Byte → Memory
  | _, [] => m
  | a, v :: vs => Memory.writeBytes (Memory.write m a v) (a + 1) vs

/-! ### The primitives on a buffer (R13, R14) -/

/-- `MemRead(o, n)` (R13). Outside the buffer it is a model fault (R13; log 11). -/
def memRead (r : Region) (m : Memory) (o n : Nat) : Except Fault (List Byte) :=
  if o + n ≤ r.cap then .ok (Memory.readBytes m (r.base + o) n) else .error .accessOutsideBuffer

/-- `MemWrite(o, n, s)` with `n` the length of `s` (R13). Outside the buffer it is a model fault (R13; log 11). -/
def memWrite (r : Region) (m : Memory) (o : Nat) (s : List Byte) : Except Fault Memory :=
  if o + s.length ≤ r.cap then .ok (Memory.writeBytes m (r.base + o) s) else .error .accessOutsideBuffer

/-- `MemMove(d, s, n)`: every source byte is read before any is written, so the regions may overlap (R60). -/
def memMove (r : Region) (m : Memory) (d s n : Nat) : Except Fault Memory := do
  let bytes ← memRead r m s n
  memWrite r m d bytes

/-- `B[o]` alone (R13). -/
def memByte (r : Region) (m : Memory) (o : Nat) : Except Fault Byte :=
  if o + 1 ≤ r.cap then .ok (Memory.read m (r.base + o)) else .error .accessOutsideBuffer

/-- `le16(o)` (R14). -/
def getLe16 (r : Region) (m : Memory) (o : Nat) : Except Fault Half := do
  let b0 ← memByte r m o
  let b1 ← memByte r m (o + 1)
  pure (le16 b0 b1)

/-- `put_le16(o, v)` (R14). -/
def putLe16 (r : Region) (m : Memory) (o : Nat) (v : Half) : Except Fault Memory :=
  memWrite r m o (le16Bytes v)

/-! ### Where the buffers lie -/

/-- The distance between the starts of two host buffers: no buffer is longer than 65535 bytes (R50), so different
buffers never overlap (log 5, DESIGN CHOICE). -/
def bufferSpan : Nat := 65536

/-- The attached buffer as a byte array in caller memory (R50). -/
def Attachment.region (a : Attachment) : Region :=
  { base := a.buffer * bufferSpan, cap := a.cap.toNat }

/-- `RBUF` as a byte array: 26 bytes (R32). -/
def rbufRegion : Region :=
  { base := 0, cap := Config.REPLY_FRAME_LEN }

/-! ### Reads from outside the commands (R31, R190)

A command reads `PAN_ID`, `ADDR` and `SEQ` through `requireInit` below, which raises NOT_INITIALISED before INIT: no
command answers the fault of this section. -/

/-- A read of a register or result field that holds `v`. Where it holds no value: "A model faults a read of a register
that holds no value. No rule performs such a read" (R190), "A model must fault a read of such a field" (R31); and so the
expected faults of vectors V2 to V6. -/
def readHeld {α : Type} (f : Field) (v : Option α) : Except Fault α :=
  match v with
  | some v => .ok v
  | none => .error (.noValue f)

/-- What a handler register holds: its field's content in READY, no value before INIT (R22 to R24, R190; log 2). -/
def Handler.held {α : Type} (h : Handler) (v : α) : Option α :=
  if h.initDone then some v else none

/-- Read `PAN_ID` from outside a command (R22, R190). -/
def readPanId (s : State) : Except Fault Half :=
  readHeld .panId (s.hr.held s.hr.panId)

/-- Read `ADDR` from outside a command (R23, R190). -/
def readAddr (s : State) : Except Fault Half :=
  readHeld .addr (s.hr.held s.hr.addr)

/-- Read `SEQ` from outside a command (R24, R190; V6). -/
def readSeq (s : State) : Except Fault Byte :=
  readHeld .seq (s.hr.held s.hr.seq)

/-- The host reads a field of `RES` between commands; a field that holds no value faults (R30, R31, R198; V1 to V5). -/
def hostRead (f : Field) (s : State) : Except Fault Tick :=
  readHeld f (resultField s.res f)

/-! ### Outcomes (R15, R168) -/

/-- `raise E(cause)`, the one way a command meets an error: STATUS and CAUSE are written, every other result field
holds no value, nothing else changes, and the next command proceeds normally (R15, R160, R168, R179). -/
def raise (st : Status) (c : Cause) (s : State) : Host.Outcome State Fault Refusal :=
  .next { s with res := errorResult st c }

/-- `ok(fields)`: the command completes and replaces the whole record (R15, R31). -/
def complete (res : Result) (s : State) : State :=
  { s with res := res }

/-- A computation over the primitives, as the outcome of a step: a primitive called out of range is a fault of the
model (R13). -/
def commit (x : Except Fault State) : Host.Outcome State Fault Refusal :=
  match x with
  | .ok s => .next s
  | .error f => .fault f

/-- Go on with the attached buffer, or raise ILLEGAL_COMMAND with cause NO_BUFFER (R74 case 3). -/
def withBuffer (s : State) (k : Region → Host.Outcome State Fault Refusal) : Host.Outcome State Fault Refusal :=
  match s.att with
  | none => raise .illegalCommand .noBuffer s
  | some a => k a.region

/-- How a command reads the handler registers: in control state READY it goes on with them; "A command that would read it
before INIT raises NOT_INITIALISED instead" (R22; R25, R140, R164). -/
def requireInit (s : State) (k : Handler → Host.Outcome State Fault Refusal) : Host.Outcome State Fault Refusal :=
  if s.hr.initDone then k s.hr else raise .notInitialised .handlerUninitialised s

/-- Raise ILLEGAL_COMMAND for a descriptor the decoder refuses (R74, R165). -/
def raiseIllegal (e : DecodeError) (s : State) : Host.Outcome State Fault Refusal :=
  match e with
  | .badOpcode => raise .illegalCommand .badOpcode s
  | .badLength => raise .illegalCommand .badLength s

/-! ### Draws and the two external devices (R15, R173, R174) -/

/-- The `n` unspecified bytes numbered from `first` on of one draw source (R15 `draw_byte`, `draw_bytes`; log 8). -/
def freeBytes (source first n : Nat) : List Byte :=
  (List.range n).map fun i => Config.freeByte source (first + i)

/-- Give `n` bytes of a buffer unspecified values, each a draw of its own from this block's source (R108, R143; log 8). -/
def fillDraws (r : Region) (o n : Nat) (s : State) : Except Fault State := do
  let m ← memWrite r s.mem o (freeBytes s.drawSource s.drawCount n)
  pure { s with mem := m, drawCount := s.drawCount + n }

/-- The value the next clock read returns: the environment's next one, or a free value of this block's own source (R173, R176;
log 7). -/
def nextClock (s : State) : Tick :=
  match s.clockIn with
  | t :: _ => t
  | [] => Config.freeClock s.drawSource s.drawCount

/-- `ClockRead()`: take the draw and append it to `CLKLOG` (R15, R173). -/
def clockRead (s : State) : Tick × State :=
  (nextClock s,
    { s with
      clockIn := s.clockIn.tail
      clkLog := s.clkLog ++ [nextClock s]
      drawCount := if s.clockIn.isEmpty then s.drawCount + 1 else s.drawCount })

/-- `Transmit(instant, s)`: append the event with a copy of the bytes and their number (R33, R174). -/
def transmit (instant : Tick) (bytes : List Byte) (s : State) : State :=
  { s with txLog := s.txLog ++ [{ instant := instant, bytes := bytes, len := BitVec.ofNat 16 bytes.length }] }

/-! ### Taking a command from the host, and its return (R53, R172) -/

/-- The host's own writes to its memory before it issues the command (R175). -/
def hostStores (m : Memory) (cells : List Host.Cell) : Memory :=
  cells.foldl (fun m c => Memory.write m c.1 c.2) m

/-- The state in which a command executes: the host's writes are in its memory, the command is no longer pending,
and its buffer is attached (R70, R172; log 6). -/
def accept (c : Command) (rest : List Delivery) (s : State) : State :=
  { s with mem := hostStores s.mem c.stores, att := c.attach, inbox := rest }

/-- The command returns: the block keeps no reference to the buffer (R53). -/
def release (s : State) : State :=
  { s with att := none }

/-- The return of a command whatever its status (R169, R179); a model fault or refusal stops the machine. -/
def returned (o : Host.Outcome State Fault Refusal) : Host.Outcome State Fault Refusal :=
  match o with
  | .next s => .next (release s)
  | .fault f => .fault f
  | .refused r => .refused r

end Sys2Proof.Machine
end

