-- ==== Sys2Proof/Machine/FrameCodec.lean ====
section
/-! DEFINITION. The frame codec commands ENCAP and DECAP (40_frame_codec.md), and the bodies the ranging commands
share with them. -/

namespace Sys2Proof.Machine

/-- The ENCAP body (R100 after its capacity check): the payload moves up by 9, the header goes in front of it, two
zero bytes follow it (R77, R101 to R104). -/
def encapBody (r : Region) (m : Memory) (panId src dst : Half) (seq : Byte) (n : Nat) : Except Fault Memory := do
  let m ← memMove r m 9 0 n
  let m ← memWrite r m 0 [Config.FC0]
  let m ← memWrite r m 1 [Config.FC1]
  let m ← memWrite r m 2 [seq]
  let m ← putLe16 r m 3 panId
  let m ← putLe16 r m 5 dst
  let m ← putLe16 r m 7 src
  memWrite r m (9 + n) [0x00, 0x00]

/-- The header fields and payload length DECAP reads (R106). -/
structure Decoded where
  seq : Byte
  panId : Half
  dst : Half
  src : Half
  payloadLen : Nat
deriving DecidableEq, Repr

/-- Whether the frame-control bytes are the two constants, compared as bytes (R78, R107 check 3). -/
def frameControlOk (r : Region) (m : Memory) : Except Fault Bool := do
  let b0 ← memByte r m 0
  let b1 ← memByte r m 1
  pure (b0 == Config.FC0 && b1 == Config.FC1)

/-- The checks of R107 in their order, then go on: `frame_len > cap`, `frame_len < 11`, frame control. -/
def checkFrame (r : Region) (len : Nat) (s : State) (k : Host.Outcome State Fault Refusal) :
    Host.Outcome State Fault Refusal :=
  if r.cap < len then raise .bufferOverflow .lenExceedsBuffer s
  else if len < Config.MIN_FRAME_LEN then raise .malformedFrame .shortFrame s
  else match frameControlOk r s.mem with
    | .error f => .fault f
    | .ok false => raise .malformedFrame .badFrameControl s
    | .ok true => k

/-- Decapsulation past the checks (R106): the header fields are read first, then the payload moves down to 0. -/
def decapsulate (r : Region) (m : Memory) (len : Nat) : Except Fault (Decoded × Memory) := do
  let n := len - Config.MIN_FRAME_LEN
  let seq ← memByte r m 2
  let pan ← getLe16 r m 3
  let dst ← getLe16 r m 5
  let src ← getLe16 r m 7
  let m ← memMove r m 0 9 n
  pure ({ seq := seq, panId := pan, dst := dst, src := src, payloadLen := n }, m)

/-- ENCAP (R100 to R105). The sum `N + 11` does not wrap. -/
def execEncap (panId src dst : Half) (seq : Byte) (payloadLen : Half) (s : State) :
    Host.Outcome State Fault Refusal :=
  withBuffer s fun r =>
    if r.cap < payloadLen.toNat + Config.MIN_FRAME_LEN then raise .bufferOverflow .frameExceedsBuffer s
    else commit do
      let m ← encapBody r s.mem panId src dst seq payloadLen.toNat
      let len := BitVec.ofNat 16 (payloadLen.toNat + Config.MIN_FRAME_LEN)
      pure (complete { okResult with frameLen := some len } { s with mem := m })

/-- DECAP past its checks (R106, R108): the fields go to `RES`, the payload to the buffer's start, and every byte of
the frame after it becomes unspecified. -/
def decapBody (r : Region) (len : Nat) (s : State) : Except Fault State := do
  let (f, m) ← decapsulate r s.mem len
  let s ← fillDraws r f.payloadLen (len - f.payloadLen) { s with mem := m }
  let payloadLen := BitVec.ofNat 16 f.payloadLen
  pure (complete
    { okResult with
      panId := some f.panId, src := some f.src, dst := some f.dst, seq := some f.seq, payloadLen := some payloadLen } s)

/-- DECAP (R106 to R110, R115). -/
def execDecap (frameLen : Half) (s : State) : Host.Outcome State Fault Refusal :=
  withBuffer s fun r => checkFrame r frameLen.toNat s (commit (decapBody r frameLen.toNat s))

end Sys2Proof.Machine
end

