-- ==== Sys2Proof/Machine/Ranging.lean ====
section
/-! DEFINITION. The ranging protocol commands INIT, PREP_ADV, SEND_ADV and PROCESS_RX (42_ranging.md). -/

namespace Sys2Proof.Machine

/-- INIT (R131): the identity is set, `SEQ` zeroed, the handler READY; an attached buffer is ignored (R74). -/
def execInit (panId address : Half) (s : State) : Host.Outcome State Fault Refusal :=
  .next (complete okResult { s with hr := { panId := panId, addr := address, seq := 0, initDone := true } })

/-- The advertisement built at the start of the buffer (R87, R132): the payload, then the ENCAP body with the
handler's identity, the broadcast address and the sequence counter. -/
def buildAdv (r : Region) (t : Tick) (h : Handler) (m : Memory) : Except Fault Memory := do
  let m ← memWrite r m 0 (tsBytes t)
  encapBody r m h.panId h.addr Config.BROADCAST h.seq Config.ADV_PAYLOAD_LEN

/-- PREP_ADV (R132): build the advertisement; no clock read, no transmission, `SEQ` unchanged. -/
def execPrepAdv (txTimestamp : Tick) (s : State) : Host.Outcome State Fault Refusal :=
  withBuffer s fun r =>
    requireInit s fun h =>
      if r.cap < Config.ADV_FRAME_LEN then raise .bufferOverflow .frameExceedsBuffer s
      else commit do
        let m ← buildAdv r txTimestamp h s.mem
        let len := BitVec.ofNat 16 Config.ADV_FRAME_LEN
        pure (complete { okResult with frameLen := some len } { s with mem := m })

/-- SEND_ADV past its checks (R133, R134): one clock read, the advertisement for the scheduled instant, one transmit
request with a copy of the finished frame (R62), then the sequence step. -/
def sendAdvBody (r : Region) (h : Handler) (s : State) : Except Fault State := do
  let (t0, s) := clockRead s
  let sched := tsAdd s.params.tsArith t0 s.params.replyScheduleDelay
  let m ← buildAdv r sched h s.mem
  let frame ← memRead r m 0 Config.ADV_FRAME_LEN
  let s := transmit sched frame { s with mem := m }
  let s := { s with hr := { h with seq := seqStep s.params.seqAdvance h.seq } }
  pure (complete okResult s)

/-- SEND_ADV (R133): both checks come before the clock read. -/
def execSendAdv (s : State) : Host.Outcome State Fault Refusal :=
  withBuffer s fun r =>
    requireInit s fun h =>
      if r.cap < Config.ADV_FRAME_LEN then raise .bufferOverflow .frameExceedsBuffer s
      else commit (sendAdvBody r h s)

/-- `drop` and the end of a reply alike: the whole attached buffer becomes unspecified and the status is OK
(R136, R143). -/
def finishRx (r : Region) (s : State) : Except Fault State := do
  let s ← fillDraws r 0 r.cap s
  pure (complete okResult s)

/-- The reply frame written into `RBUF` (R88, R137): sequence number 1, destination the advertiser, then the three
timestamps and a zero trailer. -/
def buildReply (rbuf : Memory) (pan src addr : Half) (tAdv rx tReply : Tick) : Except Fault Memory := do
  let m ← memWrite rbufRegion rbuf 0 [Config.FC0]
  let m ← memWrite rbufRegion m 1 [Config.FC1]
  let m ← memWrite rbufRegion m 2 [Config.REPLY_SEQ]
  let m ← putLe16 rbufRegion m 3 pan
  let m ← putLe16 rbufRegion m 5 src
  let m ← putLe16 rbufRegion m 7 addr
  let m ← memWrite rbufRegion m 9 (tsBytes tAdv ++ tsBytes rx ++ tsBytes tReply)
  memWrite rbufRegion m 24 [0x00, 0x00]

/-- The reply of PROCESS_RX (R137, R138): built in `RBUF`, handed to the transmit sink, no clock read. The payload of
the advertisement stands at the buffer's start. -/
def replyBody (r : Region) (src : Half) (rx : Tick) (h : Handler) (s : State) : Except Fault State := do
  let adv ← memRead r s.mem 0 Config.TS_LEN
  let tAdv := tsValue adv
  let tReply := tsAdd s.params.tsArith rx s.params.replyScheduleDelay
  let rb ← buildReply s.rbuf h.panId src h.addr tAdv rx tReply
  let frame ← memRead rbufRegion rb 0 Config.REPLY_FRAME_LEN
  finishRx r (transmit tReply frame { s with rbuf := rb })

/-- PROCESS_RX past DECAP's checks (R135, R136): decapsulate, the three filters in order, each a silent drop, then the
reply. -/
def processRxBody (r : Region) (len : Nat) (rx : Tick) (h : Handler) (s : State) : Except Fault State := do
  let (f, m) ← decapsulate r s.mem len
  let s := { s with mem := m }
  if f.panId ≠ h.panId then finishRx r s
  else if f.dst ≠ Config.BROADCAST then finishRx r s
  else if f.payloadLen ≠ Config.ADV_PAYLOAD_LEN then finishRx r s
  else replyBody r f.src rx h s

/-- PROCESS_RX (R135 to R143). -/
def execProcessRx (frameLen : Half) (rxTimestamp : Tick) (s : State) : Host.Outcome State Fault Refusal :=
  withBuffer s fun r =>
    requireInit s fun h =>
      checkFrame r frameLen.toNat s (commit (processRxBody r frameLen.toNat rxTimestamp h s))

end Sys2Proof.Machine
end

