-- ==== Sys2Proof/Machine/Timestamp.lean ====
section
/-! DEFINITION. The timestamp field commands TS_WRITE and TS_READ (41_timestamp.md). -/

namespace Sys2Proof.Machine

/-- TS_WRITE (R123): five big-endian bytes at `offset`, every other byte of the buffer unchanged. -/
def execTsWrite (offset : Half) (ts : Tick) (s : State) : Host.Outcome State Fault Refusal :=
  withBuffer s fun r =>
    if r.cap < offset.toNat + Config.TS_LEN then raise .bufferOverflow .fieldExceedsBuffer s
    else commit do
      let m ← memWrite r s.mem offset.toNat (tsBytes ts)
      pure (complete okResult { s with mem := m })

/-- TS_READ (R124): `RES.TS` from the five bytes at `offset`, the buffer unchanged. -/
def execTsRead (offset : Half) (s : State) : Host.Outcome State Fault Refusal :=
  withBuffer s fun r =>
    if r.cap < offset.toNat + Config.TS_LEN then raise .bufferOverflow .fieldExceedsBuffer s
    else commit do
      let bytes ← memRead r s.mem offset.toNat Config.TS_LEN
      pure (complete { okResult with ts := some (tsValue bytes) } s)

end Sys2Proof.Machine
end

