-- ==== Sys2Proof/Machine/Dispatch.lean ====
section
/-! DEFINITION. One arm per command, each one call of its meaning. -/

namespace Sys2Proof.Machine

def exec (i : Instr) (s : State) : Host.Outcome State Fault Refusal :=
  match i with
  | .init panId address => Sys2Proof.Machine.execInit panId address s
  | .encap panId src dst seq payloadLen => Sys2Proof.Machine.execEncap panId src dst seq payloadLen s
  | .decap frameLen => Sys2Proof.Machine.execDecap frameLen s
  | .prepAdv txTimestamp => Sys2Proof.Machine.execPrepAdv txTimestamp s
  | .sendAdv => Sys2Proof.Machine.execSendAdv s
  | .processRx frameLen rxTimestamp => Sys2Proof.Machine.execProcessRx frameLen rxTimestamp s
  | .tsWrite offset ts => Sys2Proof.Machine.execTsWrite offset ts s
  | .tsRead offset => Sys2Proof.Machine.execTsRead offset s

end Sys2Proof.Machine
end

