-- ==== Sys2Proof/Machine/Deliver.lean ====
section
/-! DEFINITION. Running one delivered descriptor (30_encoding.md R70, R74), and the attachment that goes with an
opcode-table word. -/

namespace Sys2Proof.Machine

/-- Decode and execute one descriptor in the state in which it was accepted; an illegal one raises (R74). -/
def runDescriptor (d : List Byte) (s : State) : Host.Outcome State Fault Refusal :=
  match decode d with
  | .ok i => exec i s
  | .error e => raiseIllegal e s

/-- The attachment the host gives the command of an opcode-table word: none for INIT, else buffer 0 with the largest
`cap`, so that no command is refused for want of a buffer (log 14). -/
def tableAttachment (nbits w : Nat) : Option Attachment :=
  match decodeTableWord nbits w with
  | some i => if i.needsBuffer then some { buffer := 0, cap := 0xFFFF } else none
  | none => none

/-- The command of an opcode-table word as the host issues it (log 14). -/
def tableCommand (nbits w : Nat) : Command :=
  { stores := [], desc := tableBytes nbits w, attach := tableAttachment nbits w }

end Sys2Proof.Machine
end

