-- ==== Sys2Proof/Machine/Step.lean ====
section
/-! DEFINITION. One step: the block takes the host's next command, decodes it, executes it whole, and returns
(60_exceptions.md R172; 20_memory.md R58). -/

namespace Sys2Proof.Machine

/-- One step. With no command pending the block holds its state and does nothing (R178, R191). -/
def step (s : State) : Host.Outcome State Fault Refusal :=
  match s.inbox with
  | [] => .next s
  | .command c :: rest => returned (runDescriptor c.desc (accept c rest s))
  | .overlapping _ _ :: _ => .refused .overlappingCommands

/-- `s` with the command of an opcode-table word as the host's next command: the block fetches nothing (R29), the
host delivers each command (R71; log 6). -/
def State.withFetchWord (s : State) (nbits w : Nat) : State :=
  { s with inbox := .command (tableCommand nbits w) :: s.inbox }

end Sys2Proof.Machine
end

