-- ==== Sys2Proof/Machine/Assembler.lean ====
section
/-! DEFINITION. The assembler syntax (30_encoding.md R75): one line per command, operands named, numbers decimal or
`0x` hexadecimal. The spec gives the lines, not a character-level grammar: blanks, letter case and the order of
the named operands are log 13. -/

namespace Sys2Proof.Machine

/-- An operand as written: a buffer's name, or `name=number` (R75). -/
inductive AsmArg where
  | buffer (name : List Char)
  | value (name : List Char) (v : Nat)
deriving DecidableEq, Repr

/-- What a line assembles to: the command, and the name of the buffer the host is to attach (R75). -/
structure AsmCommand where
  instr : Instr
  buffer : Option (List Char)
deriving DecidableEq, Repr

/-- Blanks between the parts of a line. -/
def isBlank (c : Char) : Bool :=
  c == ' ' || c == '\t'

/-- A part of a line without the blanks around it. -/
def trimBlanks (cs : List Char) : List Char :=
  ((cs.dropWhile isBlank).reverse.dropWhile isBlank).reverse

/-- The parts of a line between occurrences of `sep`. -/
def splitChars (sep : Char) : List Char → List (List Char)
  | [] => [[]]
  | c :: cs =>
    if c == sep then [] :: splitChars sep cs
    else match splitChars sep cs with
      | [] => [[c]]
      | part :: parts => (c :: part) :: parts

/-- The value of a digit in base 10 or 16. -/
def digitValue (base : Nat) (c : Char) : Option Nat :=
  let v :=
    if '0'.toNat ≤ c.toNat ∧ c.toNat ≤ '9'.toNat then c.toNat - '0'.toNat
    else if 'a'.toNat ≤ c.toNat ∧ c.toNat ≤ 'f'.toNat then c.toNat - 'a'.toNat + 10
    else if 'A'.toNat ≤ c.toNat ∧ c.toNat ≤ 'F'.toNat then c.toNat - 'A'.toNat + 10
    else base
  if v < base then some v else none

/-- The value of a digit sequence, most-significant digit first. -/
def digitsValue (base : Nat) : Nat → List Char → Option Nat
  | acc, [] => some acc
  | acc, c :: cs =>
    match digitValue base c with
    | some v => digitsValue base (acc * base + v) cs
    | none => none

/-- A number: `0x` hexadecimal or decimal, with at least one digit (R75). -/
def parseNumber (cs : List Char) : Option Nat :=
  match cs with
  | '0' :: 'x' :: c :: rest => digitsValue 16 0 (c :: rest)
  | c :: rest => digitsValue 10 0 (c :: rest)
  | [] => none

/-- One operand: with `=` a named number, without it a buffer's name (R75). -/
def parseArg (cs : List Char) : Option AsmArg :=
  match splitChars '=' cs with
  | [name] => if (trimBlanks name).isEmpty then none else some (.buffer (trimBlanks name))
  | [name, num] =>
    match parseNumber (trimBlanks num) with
    | some v => some (.value (trimBlanks name) v)
    | none => none
  | _ => none

/-- Every operand of a line, or none if one of them is not well formed. -/
def parseArgs : List (List Char) → Option (List AsmArg)
  | [] => some []
  | p :: ps =>
    match parseArg p, parseArgs ps with
    | some a, some as => some (a :: as)
    | _, _ => none

/-- The number an operand name is given, if it fits the operand's width (R75 `<u8>`, `<u16>`, `<u64>`). -/
def namedValue (w : Nat) (name : List Char) : List AsmArg → Option (BitVec w)
  | [] => none
  | .value n v :: args =>
    if n = name then (if v < 2 ^ w then some (BitVec.ofNat w v) else none) else namedValue w name args
  | .buffer _ :: args => namedValue w name args

/-- The command of a mnemonic with `n` named operands `vs` (R75): each `name=value` goes to the operand of that name. -/
def asmInstr (mnemonic : List Char) (vs : List AsmArg) : Option Instr :=
  if mnemonic = "INIT".toList ∧ vs.length = 2 then do
    pure (.init (← namedValue 16 "pan".toList vs) (← namedValue 16 "addr".toList vs))
  else if mnemonic = "ENCAP".toList ∧ vs.length = 5 then do
    pure (.encap (← namedValue 16 "pan".toList vs) (← namedValue 16 "src".toList vs)
      (← namedValue 16 "dst".toList vs) (← namedValue 8 "seq".toList vs) (← namedValue 16 "len".toList vs))
  else if mnemonic = "DECAP".toList ∧ vs.length = 1 then do
    pure (.decap (← namedValue 16 "len".toList vs))
  else if mnemonic = "PREP_ADV".toList ∧ vs.length = 1 then do
    pure (.prepAdv (← namedValue 64 "ts".toList vs))
  else if mnemonic = "SEND_ADV".toList ∧ vs.length = 0 then
    some .sendAdv
  else if mnemonic = "PROCESS_RX".toList ∧ vs.length = 2 then do
    pure (.processRx (← namedValue 16 "len".toList vs) (← namedValue 64 "rx".toList vs))
  else if mnemonic = "TS_WRITE".toList ∧ vs.length = 2 then do
    pure (.tsWrite (← namedValue 16 "off".toList vs) (← namedValue 64 "ts".toList vs))
  else if mnemonic = "TS_READ".toList ∧ vs.length = 1 then do
    pure (.tsRead (← namedValue 16 "off".toList vs))
  else none

/-- A mnemonic with its operands: a buffer's name first exactly where the command needs a buffer (R72, R75). -/
def asmCommand (mnemonic : List Char) (args : List AsmArg) : Option AsmCommand :=
  match args with
  | .buffer b :: vs =>
    match asmInstr mnemonic vs with
    | some i => if i.needsBuffer then some { instr := i, buffer := some b } else none
    | none => none
  | vs =>
    match asmInstr mnemonic vs with
    | some i => if i.needsBuffer then none else some { instr := i, buffer := none }
    | none => none

/-- Assemble one line (R75): a mnemonic, blanks, operands with commas between them. -/
def assemble (line : List Char) : Option AsmCommand :=
  let text := trimBlanks line
  let mnemonic := text.takeWhile fun c => !isBlank c
  let rest := trimBlanks (text.dropWhile fun c => !isBlank c)
  match parseArgs (if rest.isEmpty then [] else splitChars ',' rest) with
  | some args => asmCommand mnemonic args
  | none => none

end Sys2Proof.Machine
end

