-- ==== Sys2Proof/Machine/System.lean ====
section
/-! DEFINITION. Several blocks, one per node (60_exceptions.md R176): they share no state, and a frame one of them
transmitted can be delivered to another as the buffer of a PROCESS_RX command. Whether and when that happens is the
environment's business (R175; log 12). -/

namespace Sys2Proof.Machine

/-- A system: any number of blocks (R9 "instance count"), each with its own state and its own clock (R176).
DESIGN CHOICE (log 18): each block also has caller memory of its own. So no buffer is ever attached to two blocks at a
time (R193), and a buffer that two blocks use one after the other is written out as host stores of the second. -/
abbrev System := List State

/-- A system at its creation, one block for each choice of parameters (R190). DESIGN CHOICE (log 8): block `k` draws
from source `k`, so that nothing relates the unspecified bytes or the free clock values of two blocks (R9, R176). -/
def System.create (params : List Params) : System :=
  params.mapIdx fun k p => { State.create p with drawSource := k }

/-- Block `k` draws from source `k`: what creation leaves and every step and delivery keeps (log 8). -/
def System.numbered (sys : System) : Prop :=
  ∀ (k : Nat) (s : State), sys[k]? = some s → s.drawSource = k

/-- Block `k` takes one step. Where there is no block `k` nothing happens (log 12). -/
def System.stepAt (k : Nat) (sys : System) : Host.Outcome System Fault Refusal :=
  match sys[k]? with
  | none => .next sys
  | some s =>
    match step s with
    | .next s' => .next (sys.set k s')
    | .fault f => .fault f
    | .refused r => .refused r

/-- The cells of a byte sequence that starts at address `a`. -/
def cellsFrom (a : Nat) : List Byte → List Host.Cell
  | [] => []
  | b :: bs => (a, b) :: cellsFrom (a + 1) bs

/-- The command by which a node's host hands a received frame to its block: the frame's bytes are put at the start
of a buffer of the frame's length, and PROCESS_RX is issued with the receive time `rx` (R175, R176). -/
def receiveCommand (e : TxEvent) (buffer : Nat) (rx : Tick) : Command :=
  let a : Attachment := { buffer := buffer, cap := e.len }
  { stores := cellsFrom a.region.base e.bytes, desc := encode (.processRx e.len rx), attach := some a }

/-- The radio environment delivers a transmitted frame to a block: its host issues the PROCESS_RX after what it has
pending (R176). -/
def State.deliver (e : TxEvent) (buffer : Nat) (rx : Tick) (s : State) : State :=
  { s with inbox := s.inbox ++ [.command (receiveCommand e buffer rx)] }

/-- The radio environment takes event `n` of block `i` to block `j` (R176). Where there is no such event or block,
nothing happens (log 12). -/
def System.carry (i n j : Nat) (buffer : Nat) (rx : Tick) (sys : System) : System :=
  match (sys[i]?).bind (fun s => s.txLog[n]?), sys[j]? with
  | some e, some t => sys.set j (t.deliver e buffer rx)
  | _, _ => sys

end Sys2Proof.Machine
end

