-- ==== Sys2Proof/Safety.lean ====
section
/-! DEFINITION. The terms claims use: the frames of 30_encoding.md R77, R87 and R88 as byte sequences, which error a
command reports (60_exceptions.md R161, R167), the invariant of a block, and runs from a created block. -/

namespace Sys2Proof.Machine

/-! ### Frames as byte sequences -/

/-- The frame of R77: frame control, sequence number, PAN id, destination, source, payload, zero trailer. -/
def frameBytes (seq : Byte) (panId dst src : Half) (payload : List Byte) : List Byte :=
  [0x41, 0x88, seq] ++ le16Bytes panId ++ le16Bytes dst ++ le16Bytes src ++ payload ++ [0x00, 0x00]

/-- The advertisement frame of R87. -/
def advFrame (seq : Byte) (panId addr : Half) (t : Tick) : List Byte :=
  frameBytes seq panId 0xFFFF addr (tsBytes t)

/-- The reply frame of R88. -/
def replyFrame (panId dst addr : Half) (tAdv rx tReply : Tick) : List Byte :=
  frameBytes 0x01 panId dst addr (tsBytes tAdv ++ tsBytes rx ++ tsBytes tReply)

/-! ### Addresses of a buffer -/

/-- Address `a` belongs to the byte array. -/
abbrev Region.holds (r : Region) (a : Nat) : Prop :=
  r.base ≤ a ∧ a < r.base + r.cap

/-- Two memories read the same everywhere except at the `n` addresses from `a` on. -/
def sameOutside (m m' : Memory) (a n : Nat) : Prop :=
  ∀ x, ¬ (a ≤ x ∧ x < a + n) → Memory.read m' x = Memory.read m x

/-- Two memories read the same at the `n` addresses from `a` on. -/
def sameInside (m m' : Memory) (a n : Nat) : Prop :=
  ∀ x, a ≤ x ∧ x < a + n → Memory.read m' x = Memory.read m x

/-! ### Which error a command reports (R161, R167) -/

/-- The malformed-frame conditions in their order (R107, R167 item 4): short frame, then frame control. -/
def frameError (r : Region) (len : Nat) (m : Memory) : Option (Status × Cause) :=
  if len < 11 then some (.malformedFrame, .shortFrame)
  else if Memory.read m r.base ≠ 0x41 ∨ Memory.read m (r.base + 1) ≠ 0x88 then
    some (.malformedFrame, .badFrameControl)
  else none

/-- The buffer and frame conditions of a command on buffer `r` (R161, R167 items 3 and 4). -/
def rangeError (r : Region) (m : Memory) : Instr → Option (Status × Cause)
  | .init _ _ => none
  | .encap _ _ _ _ n => if r.cap < n.toNat + 11 then some (.bufferOverflow, .frameExceedsBuffer) else none
  | .decap len =>
    if r.cap < len.toNat then some (.bufferOverflow, .lenExceedsBuffer) else frameError r len.toNat m
  | .prepAdv _ => if r.cap < 16 then some (.bufferOverflow, .frameExceedsBuffer) else none
  | .sendAdv => if r.cap < 16 then some (.bufferOverflow, .frameExceedsBuffer) else none
  | .processRx len _ =>
    if r.cap < len.toNat then some (.bufferOverflow, .lenExceedsBuffer) else frameError r len.toNat m
  | .tsWrite o _ => if r.cap < o.toNat + 5 then some (.bufferOverflow, .fieldExceedsBuffer) else none
  | .tsRead o => if r.cap < o.toNat + 5 then some (.bufferOverflow, .fieldExceedsBuffer) else none

/-- Whether a command is one of the handler commands that need INIT (R25, R164). -/
def Instr.needsInit : Instr → Bool
  | .init _ _ => false
  | .encap _ _ _ _ _ => false
  | .decap _ => false
  | .prepAdv _ => true
  | .sendAdv => true
  | .processRx _ _ => true
  | .tsWrite _ _ => false
  | .tsRead _ => false

/-- The one error a decoded command reports, if any (R161, R167): no buffer, not initialised, buffer overflow,
malformed frame, in that order. -/
def firstError (i : Instr) (s : State) : Option (Status × Cause) :=
  match i with
  | .init _ _ => none
  | i =>
    match s.att with
    | none => some (.illegalCommand, .noBuffer)
    | some a =>
      if Instr.needsInit i = true ∧ s.hr.initDone = false then some (.notInitialised, .handlerUninitialised)
      else rangeError a.region s.mem i

/-- The one error a command as the host issues it reports in the state that accepted it, if any (R74, R161, R167): a bad
opcode, a bad length, then what the decoded command reports. -/
def commandError (c : Command) (s : State) : Option (Status × Cause) :=
  match decode c.desc with
  | .error .badOpcode => some (.illegalCommand, .badOpcode)
  | .error .badLength => some (.illegalCommand, .badLength)
  | .ok i => firstError i s

/-! ### What commands produce, and which frames are answered -/

/-- The result fields a command produces when it completes, besides STATUS and CAUSE (R30 "produced by"). -/
def Instr.produces : Instr → List Field
  | .init _ _ => []
  | .encap _ _ _ _ _ => [.resFrameLen]
  | .decap _ => [.resPanId, .resSrc, .resDst, .resSeq, .resPayloadLen]
  | .prepAdv _ => [.resFrameLen]
  | .sendAdv => []
  | .processRx _ _ => []
  | .tsWrite _ _ => []
  | .tsRead _ => [.resTs]

/-- The 16-bit header field at offset `o` of the frame at `base` (R14, R77). -/
def headerField (m : Memory) (base o : Nat) : Half :=
  le16 (Memory.read m (base + o)) (Memory.read m (base + o + 1))

/-- The three receive filters of R136: PAN id, broadcast destination, payload of 5 bytes. -/
def passesFilters (m : Memory) (base len : Nat) (panId : Half) : Prop :=
  headerField m base 3 = panId ∧ headerField m base 5 = 0xFFFF ∧ len - 11 = 5

/-- The `n` bytes from address `a` on are draws: the free values of one source, numbered from `first` on (R108, R143). -/
def drawnBytes (m : Memory) (a n source first : Nat) : Prop :=
  ∀ i < n, Memory.read m (a + i) = Config.freeByte source (first + i)

/-! ### The invariant -/

/-- The pairs of status and cause an error may leave (the two tables of R161). -/
def errorPairs : List (Status × Cause) :=
  [(.malformedFrame, .shortFrame), (.malformedFrame, .badFrameControl), (.bufferOverflow, .frameExceedsBuffer),
   (.bufferOverflow, .lenExceedsBuffer), (.bufferOverflow, .fieldExceedsBuffer),
   (.notInitialised, .handlerUninitialised), (.illegalCommand, .badOpcode), (.illegalCommand, .badLength),
   (.illegalCommand, .noBuffer)]

/-- The records a block may show (R30, R31, R161): none yet, a completed command with a 40-bit `RES.TS` if any, or an
error of R161 with nothing else. -/
def Result.legal (r : Result) : Prop :=
  r = Result.empty ∨
  (r.status = some 0x00 ∧ r.cause = some 0x00 ∧ ∀ t, r.ts = some t → t.toNat < 2 ^ 40) ∨
  ∃ p ∈ errorPairs, r = errorResult p.1 p.2

/-- An event a SEND_ADV appends: an advertisement whose payload is the transmit instant's low 40 bits (R87, R133). -/
def TxEvent.isAdv (e : TxEvent) : Prop :=
  e.len = 16 ∧ ∃ seq panId addr, e.bytes = advFrame seq panId addr e.instant

/-- An event a PROCESS_RX appends: a reply whose third timestamp is the transmit instant's low 40 bits (R88, R138). -/
def TxEvent.isReply (e : TxEvent) : Prop :=
  e.len = 26 ∧ ∃ panId dst addr tAdv rx, e.bytes = replyFrame panId dst addr tAdv rx e.instant

/-- What holds of a block at creation and after every step. -/
structure State.Inv (s : State) : Prop where
  /-- Caller memory is in its canonical form. -/
  mem_wf : Memory.wf s.mem
  /-- `RBUF` is in its canonical form and has no byte past 25 (R32). -/
  rbuf_wf : Memory.wf s.rbuf ∧ ∀ c ∈ s.rbuf, c.1 < 26
  /-- `RES` shows a legal record (R161). -/
  res_legal : Result.legal s.res
  /-- Every transmit event is an advertisement or a reply (R33, R174). -/
  tx_shape : ∀ e ∈ s.txLog, TxEvent.isAdv e ∨ TxEvent.isReply e
  /-- Under `WRAP40` every transmit instant has bits 63:40 zero (R120). -/
  tx_wrap40 : s.params.tsArith = .wrap40 → ∀ e ∈ s.txLog, e.instant.toNat < 2 ^ 40
  /-- Before INIT nothing was transmitted and no clock was read (R140, R144). -/
  uninit_logs : s.hr.initDone = false → s.txLog = [] ∧ s.clkLog = []
  /-- Under `NEVER` the counter stays 0 from INIT onward (R24). -/
  seq_never : s.hr.initDone = true → s.params.seqAdvance = .never → s.hr.seq = 0
  /-- One clock draw for each advertisement, in order, each instant its draw plus the delay; none for a reply
  (R126, R133, R138, R144). -/
  adv_instants : ((s.txLog.filter fun e => e.len == 16).map fun e => e.instant) =
    s.clkLog.map fun t => tsAdd s.params.tsArith t s.params.replyScheduleDelay
  /-- No buffer is attached between commands (R53). -/
  released : s.att = none

/-! ### Runs -/

/-- A block just created with parameters `p` (R190), alone or in a system, with whatever commands, clock values and
buffer contents the host and the environment have for it, whichever source it draws from (log 8). -/
def Started (p : Params) (s : State) : Prop :=
  ∃ inbox clockIn mem source, Memory.wf mem ∧
    s = { State.create p with inbox := inbox, clockIn := clockIn, mem := mem, drawSource := source }

/-- `t` is reached from `s` by steps that all answer a next state. -/
inductive Reaches (s : State) : State → Prop where
  | start : Reaches s s
  | step (t u : State) : Reaches s t → Machine.step t = .next u → Reaches s u

/-- The host serialises its commands (R172): no pending delivery is an overlapping pair. -/
def Serialised (s : State) : Prop :=
  ∀ c d, Delivery.overlapping c d ∉ s.inbox

/-- The premise the source's word "monotonic" becomes (R173, R175): each clock value is at least the one before. -/
def clockMonotonic (l : List Tick) : Prop :=
  l.Pairwise fun t u => t.toNat ≤ u.toNat

end Sys2Proof.Machine
end

