-- ==== Sys2Proof/Certificates/Slice0/Obligations.lean ====
section
/-! DEFINITION. The statements for the provers, in the order of the spec's files: encodings, the step, the frame codec,
timestamps, ranging, errors, state, and runs. -/

open Sys2Proof Sys2Proof.Machine

/-! ### Encodings (30_encoding.md) -/

/-- Eight descriptors written out from the map of R72 (they are vectors H1, E1, D1, S6, S7, S8, T1, T2 of
95_test_vectors.md) decode to the commands they stand for. -/
def Obligations.DecodeReadsWordsOfTheMap : Prop :=
  decode [0x01, 0xcd, 0xab, 0xfe, 0xca] = .ok (.init 0xabcd 0xcafe) ∧
  decode [0x02, 0xeb, 0xfe, 0x01, 0x00, 0x02, 0x00, 0xff, 0x03, 0x00] = .ok (.encap 0xfeeb 0x0001 0x0002 0xff 3) ∧
  decode [0x03, 0x0e, 0x00] = .ok (.decap 14) ∧
  decode [0x04, 0x58, 0x02, 0, 0, 0, 0, 0, 0] = .ok (.prepAdv 600) ∧
  decode [0x05] = .ok .sendAdv ∧
  decode [0x06, 0x10, 0x00, 0x78, 0x05, 0, 0, 0, 0, 0, 0] = .ok (.processRx 16 1400) ∧
  decode [0x07, 0x00, 0x00, 0xfe, 0xca, 0xca, 0xde, 0x0f, 0, 0, 0] = .ok (.tsWrite 0 0xfdecacafe) ∧
  decode [0x08, 0x00, 0x00] = .ok (.tsRead 0)

/-- Every legal descriptor names exactly one command, and every command has exactly one descriptor (R71 to R74): a
descriptor decodes to `i` if and only if it is the encoding of `i`, for every command with every operand. -/
def Obligations.DecodeAndEncodeAgree : Prop :=
  ∀ (d : List Byte) (i : Instr), decode d = .ok i ↔ d = encode i

/-- The decoder against the opcode map's rows (R72, R74, R167 item 1): it accepts every legal descriptor, refuses an
illegal opcode first, and then a wrong length. -/
def Obligations.DecoderFollowsTheOpcodeMap : Prop :=
  ∀ d : List Byte,
    (descriptorLegal d = true → ∃ i, decode d = .ok i) ∧
    (d ≠ [] → opcodeLegal d = false → decode d = .error .badOpcode) ∧
    (opcodeLegal d = true → lengthLegal d = false → decode d = .error .badLength)

/-- R75: in each of the eight lines every `name=value` goes to the operand of that name, and `buf` names the attached
buffer; INIT takes none. -/
def Obligations.AssemblerPutsOperandsByName : Prop :=
  ∀ (pan addr src dst len off : Half) (seq : Byte) (ts : Tick) (buf : List Char),
    asmCommand "INIT".toList [.value "pan".toList pan.toNat, .value "addr".toList addr.toNat] =
      some { instr := .init pan addr, buffer := none } ∧
    asmCommand "ENCAP".toList [.buffer buf, .value "pan".toList pan.toNat, .value "src".toList src.toNat,
        .value "dst".toList dst.toNat, .value "seq".toList seq.toNat, .value "len".toList len.toNat] =
      some { instr := .encap pan src dst seq len, buffer := some buf } ∧
    asmCommand "DECAP".toList [.buffer buf, .value "len".toList len.toNat] =
      some { instr := .decap len, buffer := some buf } ∧
    asmCommand "PREP_ADV".toList [.buffer buf, .value "ts".toList ts.toNat] =
      some { instr := .prepAdv ts, buffer := some buf } ∧
    asmCommand "SEND_ADV".toList [.buffer buf] = some { instr := .sendAdv, buffer := some buf } ∧
    asmCommand "PROCESS_RX".toList [.buffer buf, .value "len".toList len.toNat, .value "rx".toList ts.toNat] =
      some { instr := .processRx len ts, buffer := some buf } ∧
    asmCommand "TS_WRITE".toList [.buffer buf, .value "off".toList off.toNat, .value "ts".toList ts.toNat] =
      some { instr := .tsWrite off ts, buffer := some buf } ∧
    asmCommand "TS_READ".toList [.buffer buf, .value "off".toList off.toNat] =
      some { instr := .tsRead off, buffer := some buf }

/-! ### The step (60_exceptions.md R172, 20_memory.md R53, 30_encoding.md R74) -/

/-- When the host's next command decodes to `i`, the step is `exec i` in the state that has taken the command (its
host's stores done, its buffer attached, the command no longer pending), and on return no buffer stays attached. -/
def Obligations.StepRunsTheDecodedCommand : Prop :=
  ∀ (s : State) (c : Command) (rest : List Delivery) (i : Instr),
    s.inbox = .command c :: rest → decode c.desc = .ok i →
    step s = returned (exec i { s with mem := hostStores s.mem c.stores, att := c.attach, inbox := rest }) ∧
    ∀ t, exec i { s with mem := hostStores s.mem c.stores, att := c.attach, inbox := rest } = .next t →
      step s = .next { t with att := none }

/-- R74: the three kinds of illegal descriptor, in the order of R167 item 1, raise ILLEGAL_COMMAND with their cause and
have no other effect; a buffer attached to INIT is ignored and unchanged; every legal descriptor names one command.
The empty byte string, which has no opcode byte, is the statement after this one. -/
def Obligations.IllegalDescriptorsRaiseIllegalCommand : Prop :=
  ∀ (s : State) (c : Command) (rest : List Delivery), s.inbox = .command c :: rest → c.desc ≠ [] →
    (opcodeLegal c.desc = false →
      step s = .next { accept c rest s with res := errorResult .illegalCommand .badOpcode, att := none }) ∧
    (opcodeLegal c.desc = true → lengthLegal c.desc = false →
      step s = .next { accept c rest s with res := errorResult .illegalCommand .badLength, att := none }) ∧
    (descriptorLegal c.desc = true → bufferLegal c.desc c.attach.isSome = false →
      step s = .next { accept c rest s with res := errorResult .illegalCommand .noBuffer, att := none }) ∧
    (∀ panId address, c.desc = encode (.init panId address) →
      step s = .next { accept c rest s with
        hr := { panId := panId, addr := address, seq := 0, initDone := true }, res := okResult, att := none }) ∧
    (commandLegal c.desc c.attach.isSome = true → ∃ i, decode c.desc = .ok i ∧ ∀ j, decode c.desc = .ok j → j = i)

/-- An empty descriptor is refused for its length. The spec gives no cause for it: the cause is this model's choice
(log 9). -/
def Obligations.EmptyDescriptorRaisesBadLength : Prop :=
  ∀ (s : State) (c : Command) (rest : List Delivery), s.inbox = .command c :: rest → c.desc = [] →
    step s = .next { accept c rest s with res := errorResult .illegalCommand .badLength, att := none }

/-- Two commands issued to one block at the same time are refused (R172, R194). -/
def Obligations.OverlappingCommandsAreRefused : Prop :=
  ∀ (s : State) (c d : Command) (rest : List Delivery), s.inbox = .overlapping c d :: rest →
    step s = .refused .overlappingCommands

/-- Between commands the block holds its state and does nothing (R178, R191). -/
def Obligations.BlockHoldsItsStateBetweenCommands : Prop :=
  ∀ s : State, s.inbox = [] → step s = .next s

/-! ### Buffers (20_memory.md) -/

/-- R60: `MemMove` copies as if through a temporary, overlap or not, and touches nothing outside its destination. -/
def Obligations.MemMoveCopiesThroughATemporary : Prop :=
  ∀ (r : Region) (m : Memory) (d s n : Nat), d + n ≤ r.cap → s + n ≤ r.cap →
    ∃ m', memMove r m d s n = .ok m' ∧
      (∀ i < n, Memory.read m' (r.base + d + i) = Memory.read m (r.base + s + i)) ∧
      sameOutside m m' (r.base + d) n

/-- A byte of a canonical memory decides it: two canonical memories that read the same everywhere are the same data
(the model's own law: its memory is caller memory in one canonical form, log 5). -/
def Obligations.CanonicalMemoriesThatReadAlikeAreEqual : Prop :=
  ∀ m m' : Memory, Memory.wf m → Memory.wf m' → (∀ a, Memory.read m a = Memory.read m' a) → m = m'

/-- The range discipline (R51) for writes, for every command: no byte outside the attached buffer changes; with no
buffer attached, and by INIT and TS_READ, no byte changes at all. -/
def Obligations.CommandsWriteOnlyTheirBuffer : Prop :=
  ∀ (i : Instr) (s t : State), exec i s = .next t →
    (∀ a, s.att = some a → sameOutside s.mem t.mem a.region.base a.region.cap) ∧
    (s.att = none → t.mem = s.mem) ∧
    (∀ panId address, i = .init panId address → t.mem = s.mem) ∧
    (∀ offset, i = .tsRead offset → t.mem = s.mem)

/-- The range discipline (R51) for reads, for every command: what a command does, apart from the bytes outside its
buffer that it leaves alone, depends only on the bytes inside its buffer. -/
def Obligations.CommandsReadOnlyTheirBuffer : Prop :=
  ∀ (i : Instr) (s t : State) (a : Attachment) (m : Memory), s.att = some a →
    sameInside s.mem m a.region.base a.region.cap → exec i s = .next t →
    ∃ m', exec i { s with mem := m } = .next { t with mem := m' } ∧
      sameInside t.mem m' a.region.base a.region.cap

/-! ### The frame codec (40_frame_codec.md) -/

/-- ENCAP (R100 to R105): its encoding; with `N + 11 <= cap` it completes, the buffer holds the frame of R77 around the
old payload (frame control `41 88`, zero trailer), every other byte and everything else but `RES` is unchanged;
otherwise it raises BUFFER_OVERFLOW, the sum not wrapping, and that is its only error with a buffer attached. -/
def Obligations.EncapBuildsTheFrameInPlace : Prop :=
  ∀ (panId src dst : Half) (seq : Byte) (n : Half) (s : State) (a : Attachment), s.att = some a →
    ((encode (.encap panId src dst seq n)).head? = some 0x02 ∧ (encode (.encap panId src dst seq n)).length = 10) ∧
    (n.toNat + 11 ≤ a.cap.toNat →
      ∃ m', exec (.encap panId src dst seq n) s = .next { s with
          mem := m', res := { okResult with frameLen := some (n + 11) } } ∧
        Memory.readBytes m' a.region.base (n.toNat + 11) =
          frameBytes seq panId dst src (Memory.readBytes s.mem a.region.base n.toNat) ∧
        sameOutside s.mem m' a.region.base (n.toNat + 11)) ∧
    (a.cap.toNat < n.toNat + 11 →
      exec (.encap panId src dst seq n) s = .next { s with
        res := errorResult .bufferOverflow .frameExceedsBuffer })

/-- DECAP (R106, R108): its encoding; past the checks of R107 it completes, `RES` holds the header fields and the payload
length, the payload stands at the buffer's start, every byte from there to the frame's end is a draw of its own, every
other byte and everything else (but the model's count of draws) is unchanged; where a check fails, the first one is raised (R161, R167:
`firstError`) and nothing but `RES` changes. -/
def Obligations.DecapReturnsFieldsAndPayload : Prop :=
  ∀ (len : Half) (s : State) (a : Attachment), s.att = some a →
    ((encode (.decap len)).head? = some 0x03 ∧ (encode (.decap len)).length = 3) ∧
    (len.toNat ≤ a.cap.toNat → 11 ≤ len.toNat →
      Memory.read s.mem a.region.base = 0x41 → Memory.read s.mem (a.region.base + 1) = 0x88 →
      ∃ m', exec (.decap len) s = .next { s with
          mem := m'
          drawCount := s.drawCount + 11
          res := { okResult with
            seq := some (Memory.read s.mem (a.region.base + 2))
            panId := some (headerField s.mem a.region.base 3)
            dst := some (headerField s.mem a.region.base 5)
            src := some (headerField s.mem a.region.base 7)
            payloadLen := some (len - 11) } } ∧
        Memory.readBytes m' a.region.base (len.toNat - 11) =
          Memory.readBytes s.mem (a.region.base + 9) (len.toNat - 11) ∧
        drawnBytes m' (a.region.base + (len.toNat - 11)) 11 s.drawSource s.drawCount ∧
        sameOutside s.mem m' a.region.base len.toNat) ∧
    (∀ st c, firstError (.decap len) s = some (st, c) →
      exec (.decap len) s = .next { s with res := errorResult st c })

/-- DECAP's checks in their order, each raising with its cause and leaving everything but `RES` unchanged (R107,
R115). -/
def Obligations.DecapChecksInOrder : Prop :=
  ∀ (len : Half) (s : State) (a : Attachment), s.att = some a →
    (a.cap.toNat < len.toNat →
      exec (.decap len) s = .next { s with res := errorResult .bufferOverflow .lenExceedsBuffer }) ∧
    (len.toNat ≤ a.cap.toNat → len.toNat < 11 →
      exec (.decap len) s = .next { s with res := errorResult .malformedFrame .shortFrame }) ∧
    (len.toNat ≤ a.cap.toNat → 11 ≤ len.toNat →
      (Memory.read s.mem a.region.base ≠ 0x41 ∨ Memory.read s.mem (a.region.base + 1) ≠ 0x88) →
      exec (.decap len) s = .next { s with res := errorResult .malformedFrame .badFrameControl }) ∧
    (len.toNat ≤ a.cap.toNat → 11 ≤ len.toNat →
      Memory.read s.mem a.region.base = 0x41 → Memory.read s.mem (a.region.base + 1) = 0x88 →
      ∃ t, exec (.decap len) s = .next t ∧ t.res.status = some 0x00)

/-- R109: DECAP never reads the buffer at an offset `>= frame_len`: change any bytes there, and its result record, its
draws, and the frame's bytes afterwards are the same. -/
def Obligations.DecapReadsOnlyTheFrame : Prop :=
  ∀ (len : Half) (s t : State) (a : Attachment) (m : Memory), s.att = some a →
    sameInside s.mem m a.region.base len.toNat → exec (.decap len) s = .next t →
    ∃ m', exec (.decap len) { s with mem := m } = .next { t with mem := m' } ∧
      sameInside t.mem m' a.region.base len.toNat

/-- R111: ENCAP and then DECAP on the same buffer gives the operands and the payload back. -/
def Obligations.DecapInvertsEncap : Prop :=
  ∀ (panId src dst : Half) (seq : Byte) (n : Half) (s : State) (a : Attachment), s.att = some a →
    n.toNat + 11 ≤ a.cap.toNat →
    ∃ t u, exec (.encap panId src dst seq n) s = .next t ∧ exec (.decap (n + 11)) t = .next u ∧
      u.res = { okResult with
        panId := some panId, src := some src, dst := some dst, seq := some seq, payloadLen := some n } ∧
      Memory.readBytes u.mem a.region.base n.toNat = Memory.readBytes s.mem a.region.base n.toNat

/-- R112: a frame built by ENCAP, by PREP_ADV or by SEND_ADV passes DECAP's checks in the buffer it was built in; and the
frame of every transmit event a command appends (an advertisement or a reply) passes them in any buffer it is loaded
into. -/
def Obligations.BuiltFramesPassDecap : Prop :=
  (∀ (panId src dst : Half) (seq : Byte) (n : Half) (s t : State), exec (.encap panId src dst seq n) s = .next t →
    t.res.status = some 0x00 → ∃ u, exec (.decap (n + 11)) t = .next u ∧ u.res.status = some 0x00) ∧
  (∀ (i : Instr) (s t : State), ((∃ ts, i = .prepAdv ts) ∨ i = .sendAdv) → exec i s = .next t →
    t.res.status = some 0x00 → ∃ u, exec (.decap 16) t = .next u ∧ u.res.status = some 0x00) ∧
  (∀ (i : Instr) (s t v : State) (e : TxEvent) (b : Attachment), exec i s = .next t → t.txLog = s.txLog ++ [e] →
    v.att = some b → e.len.toNat ≤ b.cap.toNat → Memory.readBytes v.mem b.region.base e.len.toNat = e.bytes →
    ∃ u, exec (.decap e.len) v = .next u ∧ u.res.status = some 0x00)

/-! ### Timestamps (41_timestamp.md) -/

/-- R125: decoding the encoding of `t` gives `t[39:0]`, and so `t` itself below `2^40`; encoding the decoding of five
bytes gives them back. -/
def Obligations.TimestampCodecLaws : Prop :=
  (∀ t : Tick, (tsValue (tsBytes t)).toNat = t.toNat % 2 ^ 40) ∧
  (∀ t : Tick, t.toNat < 2 ^ 40 → tsValue (tsBytes t) = t) ∧
  (∀ s : List Byte, s.length = 5 → tsBytes (tsValue s) = s)

/-- R126 and R127: the scheduled instant wraps at the width of the mode; both modes embed the same bytes, those of
`(t + d) mod 2^40`; the instants differ only where `t[39:0] + d >= 2^40` or `t[63:40]` is not zero; and two blocks that
differ in their mode only do the same but for the instants they hand to the transmit capability. -/
def Obligations.ScheduledInstantArithmetic : Prop :=
  (∀ (t : Tick) (d : BitVec 40),
    (tsAdd .wrap40 t d).toNat = (t.toNat + d.toNat) % 2 ^ 40 ∧
    (tsAdd .wrap64 t d).toNat = (t.toNat + d.toNat) % 2 ^ 64 ∧
    (∀ mode, tsBytes (tsAdd mode t d) = tsBytes (BitVec.ofNat 64 ((t.toNat + d.toNat) % 2 ^ 40))) ∧
    (tsAdd .wrap40 t d ≠ tsAdd .wrap64 t d → 2 ^ 40 ≤ t.toNat % 2 ^ 40 + d.toNat ∨ t.toNat / 2 ^ 40 ≠ 0)) ∧
  (∀ (i : Instr) (s t : State) (mode : TsArith), exec i s = .next t →
    ∃ sent, exec i { s with params := { s.params with tsArith := mode } } = .next { t with
        params := { s.params with tsArith := mode }, txLog := s.txLog ++ sent } ∧
      (t.txLog.map fun e => (e.bytes, e.len)) = (s.txLog ++ sent).map fun e => (e.bytes, e.len))

/-- R201: under `WRAP40` an instant scheduled across the 40-bit wrap is numerically smaller than the time that produced
it. -/
def Obligations.WrappedInstantIsSmaller : Prop :=
  ∀ (t : Tick) (d : BitVec 40), t.toNat < 2 ^ 40 → 2 ^ 40 ≤ t.toNat + d.toNat → (tsAdd .wrap40 t d).toNat < t.toNat

/-- TS_WRITE (R123): its encoding; inside the buffer it writes the five big-endian bytes of bits 39:0 and nothing else;
otherwise it raises BUFFER_OVERFLOW and the buffer is unchanged. -/
def Obligations.TsWriteStoresFiveBigEndianBytes : Prop :=
  ∀ (o : Half) (ts : Tick) (s : State) (a : Attachment), s.att = some a →
    ((encode (.tsWrite o ts)).head? = some 0x07 ∧ (encode (.tsWrite o ts)).length = 11) ∧
    (o.toNat + 5 ≤ a.cap.toNat →
      ∃ m', exec (.tsWrite o ts) s = .next { s with mem := m', res := okResult } ∧
        Memory.readBytes m' (a.region.base + o.toNat) 5 =
          [ts.extractLsb' 32 8, ts.extractLsb' 24 8, ts.extractLsb' 16 8, ts.extractLsb' 8 8, ts.extractLsb' 0 8] ∧
        sameOutside s.mem m' (a.region.base + o.toNat) 5) ∧
    (a.cap.toNat < o.toNat + 5 →
      exec (.tsWrite o ts) s = .next { s with res := errorResult .bufferOverflow .fieldExceedsBuffer })

/-- TS_READ (R124): its encoding; inside the buffer `RES.TS` is the big-endian number of the five bytes, below `2^40`,
and nothing else changes; otherwise it raises BUFFER_OVERFLOW. -/
def Obligations.TsReadReturnsTheFieldsNumber : Prop :=
  ∀ (o : Half) (s : State) (a : Attachment), s.att = some a →
    ((encode (.tsRead o)).head? = some 0x08 ∧ (encode (.tsRead o)).length = 3) ∧
    (o.toNat + 5 ≤ a.cap.toNat →
      ∃ v : Tick, exec (.tsRead o) s = .next { s with res := { okResult with ts := some v } } ∧
        v.toNat = (Memory.read s.mem (a.region.base + o.toNat)).toNat * 2 ^ 32 +
          (Memory.read s.mem (a.region.base + o.toNat + 1)).toNat * 2 ^ 24 +
          (Memory.read s.mem (a.region.base + o.toNat + 2)).toNat * 2 ^ 16 +
          (Memory.read s.mem (a.region.base + o.toNat + 3)).toNat * 2 ^ 8 +
          (Memory.read s.mem (a.region.base + o.toNat + 4)).toNat ∧
        v.toNat < 2 ^ 40) ∧
    (a.cap.toNat < o.toNat + 5 →
      exec (.tsRead o) s = .next { s with res := errorResult .bufferOverflow .fieldExceedsBuffer })

/-- Writing a timestamp and reading it back at the same offset gives bits 39:0, in any buffer that holds the field. -/
def Obligations.TsReadInvertsTsWrite : Prop :=
  ∀ (o : Half) (ts : Tick) (s : State) (a : Attachment), s.att = some a → o.toNat + 5 ≤ a.cap.toNat →
    ∃ t u v, exec (.tsWrite o ts) s = .next t ∧ exec (.tsRead o) t = .next u ∧
      u.res = { okResult with ts := some v } ∧ v.toNat = ts.toNat % 2 ^ 40

/-! ### Ranging (42_ranging.md) -/

/-- INIT (R131): its encoding; it completes in every state, whatever buffer is attached, sets the identity, zeroes `SEQ`,
and touches nothing else: not `TXLOG`, `CLKLOG`, `RBUF` or any buffer. -/
def Obligations.InitSetsTheIdentity : Prop :=
  ∀ (panId address : Half) (s : State),
    ((encode (.init panId address)).head? = some 0x01 ∧ (encode (.init panId address)).length = 5) ∧
    exec (.init panId address) s = .next { s with
      hr := { panId := panId, addr := address, seq := 0, initDone := true }, res := okResult }

/-- PREP_ADV (R132): its encoding; in READY with 16 bytes or more it leaves the advertisement of R87 in the buffer,
`RES.FRAME_LEN` 16, and nothing else changed: not `SEQ`, no log; before INIT it raises NOT_INITIALISED, and in a
shorter buffer BUFFER_OVERFLOW. -/
def Obligations.PrepAdvBuildsTheAdvertisement : Prop :=
  ∀ (ts : Tick) (s : State) (a : Attachment), s.att = some a →
    ((encode (.prepAdv ts)).head? = some 0x04 ∧ (encode (.prepAdv ts)).length = 9) ∧
    (s.hr.initDone = true → 16 ≤ a.cap.toNat →
      ∃ m', exec (.prepAdv ts) s = .next { s with mem := m', res := { okResult with frameLen := some 16 } } ∧
        Memory.readBytes m' a.region.base 16 = advFrame s.hr.seq s.hr.panId s.hr.addr ts ∧
        sameOutside s.mem m' a.region.base 16) ∧
    (s.hr.initDone = false →
      exec (.prepAdv ts) s = .next { s with res := errorResult .notInitialised .handlerUninitialised }) ∧
    (s.hr.initDone = true → a.cap.toNat < 16 →
      exec (.prepAdv ts) s = .next { s with res := errorResult .bufferOverflow .frameExceedsBuffer })

/-- R145: the frame PREP_ADV leaves decodes to payload length 5, broadcast destination and the handler's identity, and a
TS_READ at offset 0 then gives the timestamp. -/
def Obligations.AdvertisementDecodesToItsParts : Prop :=
  ∀ (ts : Tick) (s : State) (a : Attachment), s.att = some a → s.hr.initDone = true → 16 ≤ a.cap.toNat →
    ts.toNat < 2 ^ 40 →
    ∃ t u v, exec (.prepAdv ts) s = .next t ∧ exec (.decap 16) t = .next u ∧ exec (.tsRead 0) u = .next v ∧
      u.res = { okResult with
        panId := some s.hr.panId, src := some s.hr.addr, dst := some 0xFFFF, seq := some s.hr.seq,
        payloadLen := some 5 } ∧
      v.res = { okResult with ts := some ts }

/-- SEND_ADV (R133): its encoding; in READY with 16 bytes or more it takes one clock draw `t0`, leaves the
advertisement of the scheduled instant in the buffer, appends one transmit event with those 16 bytes, and steps `SEQ` as
`SEQ_ADVANCE` says; nothing else changes but the clock's own input and the model's count of draws. A SEND_ADV that raises
takes no draw and changes nothing but `RES`. -/
def Obligations.SendAdvSchedulesOneTransmit : Prop :=
  ∀ (s : State) (a : Attachment), s.att = some a →
    ((encode .sendAdv).head? = some 0x05 ∧ (encode .sendAdv).length = 1) ∧
    (s.hr.initDone = true → 16 ≤ a.cap.toNat →
      ∃ m', exec .sendAdv s = .next { s with
          mem := m'
          clkLog := s.clkLog ++ [nextClock s]
          txLog := s.txLog ++ [{
            instant := tsAdd s.params.tsArith (nextClock s) s.params.replyScheduleDelay
            bytes := advFrame s.hr.seq s.hr.panId s.hr.addr
              (tsAdd s.params.tsArith (nextClock s) s.params.replyScheduleDelay)
            len := 16 }]
          hr := { s.hr with seq := match s.params.seqAdvance with | .never => s.hr.seq | .onSendAdv => s.hr.seq + 1 }
          clockIn := s.clockIn.tail
          drawCount := if s.clockIn.isEmpty then s.drawCount + 1 else s.drawCount
          res := okResult } ∧
        Memory.readBytes m' a.region.base 16 = advFrame s.hr.seq s.hr.panId s.hr.addr
          (tsAdd s.params.tsArith (nextClock s) s.params.replyScheduleDelay) ∧
        sameOutside s.mem m' a.region.base 16) ∧
    (s.hr.initDone = false →
      exec .sendAdv s = .next { s with res := errorResult .notInitialised .handlerUninitialised }) ∧
    (s.hr.initDone = true → a.cap.toNat < 16 →
      exec .sendAdv s = .next { s with res := errorResult .bufferOverflow .frameExceedsBuffer })

/-- R146: in every successful SEND_ADV the timestamp at frame offset 9 is `(t0 + REPLY_SCHEDULE_DELAY) mod 2^40`, where
`t0` is the draw just appended to `CLKLOG`; under `WRAP40` the transmit instant is the same value. -/
def Obligations.EmbeddedTimestampIsTheScheduledInstant : Prop :=
  ∀ (s t : State) (a : Attachment), s.att = some a → exec .sendAdv s = .next t → t.res.status = some 0x00 →
    ∃ t0 e, t.clkLog = s.clkLog ++ [t0] ∧ t.txLog = s.txLog ++ [e] ∧
      (tsValue (Memory.readBytes t.mem (a.region.base + 9) 5)).toNat =
        (t0.toNat + s.params.replyScheduleDelay.toNat) % 2 ^ 40 ∧
      (s.params.tsArith = .wrap40 →
        e.instant.toNat = (t0.toNat + s.params.replyScheduleDelay.toNat) % 2 ^ 40)

/-- R134: a successful SEND_ADV leaves `SEQ` under `NEVER` and steps it by 1 modulo 256 under `ON_SEND_ADV`, the frame
carrying the old value; no other command but INIT, which zeroes it, changes `SEQ`. -/
def Obligations.OnlySendAdvAdvancesSeq : Prop :=
  ∀ (i : Instr) (s t : State), exec i s = .next t →
    (i = .sendAdv → t.res.status = some 0x00 →
      (∃ e, t.txLog = s.txLog ++ [e] ∧ e.bytes[2]? = some s.hr.seq) ∧
      (s.params.seqAdvance = .never → t.hr.seq = s.hr.seq) ∧
      (s.params.seqAdvance = .onSendAdv → t.hr.seq.toNat = (s.hr.seq.toNat + 1) % 256)) ∧
    (i = .sendAdv → t.res.status ≠ some 0x00 → t.hr.seq = s.hr.seq) ∧
    (i ≠ .sendAdv → (∀ panId address, i ≠ .init panId address) → t.hr.seq = s.hr.seq) ∧
    (∀ panId address, i = .init panId address → t.hr.seq = 0)

/-- PROCESS_RX's errors in their order (R135): before INIT NOT_INITIALISED, then DECAP's three checks; each changes
nothing but `RES`, so the buffer is unchanged and nothing is appended. -/
def Obligations.ProcessRxChecksInOrder : Prop :=
  ∀ (len : Half) (rx : Tick) (s : State) (a : Attachment), s.att = some a →
    ((encode (.processRx len rx)).head? = some 0x06 ∧ (encode (.processRx len rx)).length = 11) ∧
    (s.hr.initDone = false →
      exec (.processRx len rx) s = .next { s with res := errorResult .notInitialised .handlerUninitialised }) ∧
    (s.hr.initDone = true → a.cap.toNat < len.toNat →
      exec (.processRx len rx) s = .next { s with res := errorResult .bufferOverflow .lenExceedsBuffer }) ∧
    (s.hr.initDone = true → len.toNat ≤ a.cap.toNat → len.toNat < 11 →
      exec (.processRx len rx) s = .next { s with res := errorResult .malformedFrame .shortFrame }) ∧
    (s.hr.initDone = true → len.toNat ≤ a.cap.toNat → 11 ≤ len.toNat →
      (Memory.read s.mem a.region.base ≠ 0x41 ∨ Memory.read s.mem (a.region.base + 1) ≠ 0x88) →
      exec (.processRx len rx) s = .next { s with res := errorResult .malformedFrame .badFrameControl })

/-- R136: an accepted frame that fails the PAN, the destination or the length filter is dropped silently: STATUS is OK,
nothing is transmitted, `HR`, `RBUF` and the logs are unchanged, and every byte of the attached buffer is a draw (R143). -/
def Obligations.FilteredFramesAreDroppedSilently : Prop :=
  ∀ (len : Half) (rx : Tick) (s : State) (a : Attachment), s.att = some a → s.hr.initDone = true →
    len.toNat ≤ a.cap.toNat → 11 ≤ len.toNat →
    Memory.read s.mem a.region.base = 0x41 → Memory.read s.mem (a.region.base + 1) = 0x88 →
    (headerField s.mem a.region.base 3 ≠ s.hr.panId ∨ headerField s.mem a.region.base 5 ≠ 0xFFFF ∨
      len.toNat - 11 ≠ 5) →
    ∃ m', exec (.processRx len rx) s = .next { s with
        mem := m', drawCount := s.drawCount + a.cap.toNat, res := okResult } ∧
      drawnBytes m' a.region.base a.cap.toNat s.drawSource s.drawCount ∧
      sameOutside s.mem m' a.region.base a.cap.toNat

/-- R137, R138: an advertisement that passes the filters is answered: the reply frame of R88 in `RBUF`, addressed to the
advertiser, sequence number 1, the three timestamps, exactly one transmit event at `rx + REPLY_SCHEDULE_DELAY`, no clock
read; nothing else changes but the attached buffer, whose bytes are draws (R143), and the model's count of draws. -/
def Obligations.AcceptedAdvertisementIsAnswered : Prop :=
  ∀ (len : Half) (rx : Tick) (s : State) (a : Attachment), s.att = some a → s.hr.initDone = true →
    len.toNat ≤ a.cap.toNat → 11 ≤ len.toNat →
    Memory.read s.mem a.region.base = 0x41 → Memory.read s.mem (a.region.base + 1) = 0x88 →
    passesFilters s.mem a.region.base len.toNat s.hr.panId →
    ∃ m' rb frame, frame = replyFrame s.hr.panId (headerField s.mem a.region.base 7) s.hr.addr
        (tsValue (Memory.readBytes s.mem (a.region.base + 9) 5)) rx
        (tsAdd s.params.tsArith rx s.params.replyScheduleDelay) ∧
      exec (.processRx len rx) s = .next { s with
        mem := m'
        rbuf := rb
        txLog := s.txLog ++ [{
          instant := tsAdd s.params.tsArith rx s.params.replyScheduleDelay, bytes := frame, len := 26 }]
        drawCount := s.drawCount + a.cap.toNat
        res := okResult } ∧
      Memory.readBytes rb 0 26 = frame ∧
      drawnBytes m' a.region.base a.cap.toNat s.drawSource s.drawCount ∧
      sameOutside s.mem m' a.region.base a.cap.toNat

/-- R139: the status, the transmit request and the `RBUF` contents of a PROCESS_RX depend only on its operands, the
bytes of the frame, `PAN_ID`, `ADDR`, `INIT_DONE`, `REPLY_SCHEDULE_DELAY` and `TS_ARITH`: two states alike in those may
attach different buffers of one length and differ in `SEQ`, the logs, `RBUF`, `RES`, `SEQ_ADVANCE`, the rest of memory
and every input, and the outcome is the same. -/
def Obligations.ProcessRxDependsOnlyOnFrameAndIdentity : Prop :=
  ∀ (len : Half) (rx : Tick) (s t : State) (a b : Attachment), s.att = some a → t.att = some b → a.cap = b.cap →
    (∀ i < len.toNat, Memory.read s.mem (a.region.base + i) = Memory.read t.mem (b.region.base + i)) →
    s.hr.panId = t.hr.panId → s.hr.addr = t.hr.addr → s.hr.initDone = t.hr.initDone →
    s.params.replyScheduleDelay = t.params.replyScheduleDelay → s.params.tsArith = t.params.tsArith →
    ∃ s' t' sent, exec (.processRx len rx) s = .next s' ∧ exec (.processRx len rx) t = .next t' ∧
      s'.res = t'.res ∧ s'.txLog = s.txLog ++ sent ∧ t'.txLog = t.txLog ++ sent ∧
      (sent = [] → s'.rbuf = s.rbuf ∧ t'.rbuf = t.rbuf) ∧
      (sent ≠ [] → Memory.readBytes s'.rbuf 0 26 = Memory.readBytes t'.rbuf 0 26)

/-- R143: past DECAP's checks, whether it drops or replies, every byte of the attached buffer is a draw of its own; a
PROCESS_RX that raises leaves memory unchanged. -/
def Obligations.ProcessRxLeavesTheBufferUnspecified : Prop :=
  ∀ (len : Half) (rx : Tick) (s t : State) (a : Attachment), s.att = some a →
    exec (.processRx len rx) s = .next t →
    (frameError a.region len.toNat s.mem = none → s.hr.initDone = true → len.toNat ≤ a.cap.toNat →
      drawnBytes t.mem a.region.base a.cap.toNat s.drawSource s.drawCount) ∧
    (t.res.status ≠ some 0x00 → t.mem = s.mem)

/-- R142: after a reply `RBUF` holds the reply frame, after a drop or a raise it is unchanged, and no other command reads
or writes it. -/
def Obligations.RbufHoldsOnlyTheLastReply : Prop :=
  (∀ (len : Half) (rx : Tick) (s t : State), exec (.processRx len rx) s = .next t →
    (t.txLog = s.txLog → t.rbuf = s.rbuf) ∧
    (∀ e, t.txLog = s.txLog ++ [e] → Memory.readBytes t.rbuf 0 26 = e.bytes)) ∧
  (∀ (i : Instr) (s t : State) (rb : Memory), (∀ len rx, i ≠ .processRx len rx) → exec i s = .next t →
    t.rbuf = s.rbuf ∧ exec i { s with rbuf := rb } = .next { t with rbuf := rb })

/-- R144: PREP_ADV appends to no log; a SEND_ADV that succeeds appends one clock value and one event, one that raises
appends nothing; PROCESS_RX appends one event exactly when it replies and never a clock value. -/
def Obligations.LogsGrowByCommand : Prop :=
  ∀ (s t : State),
    (∀ ts, exec (.prepAdv ts) s = .next t → t.txLog = s.txLog ∧ t.clkLog = s.clkLog) ∧
    (exec .sendAdv s = .next t →
      (t.res.status = some 0x00 → ∃ v e, t.clkLog = s.clkLog ++ [v] ∧ t.txLog = s.txLog ++ [e]) ∧
      (t.res.status ≠ some 0x00 → t.txLog = s.txLog ∧ t.clkLog = s.clkLog)) ∧
    (∀ len rx, exec (.processRx len rx) s = .next t →
      t.clkLog = s.clkLog ∧
      ((∃ a, s.att = some a ∧ t.res.status = some 0x00 ∧
          passesFilters s.mem a.region.base len.toNat s.hr.panId) →
        ∃ e, t.txLog = s.txLog ++ [e]) ∧
      (¬ (∃ a, s.att = some a ∧ t.res.status = some 0x00 ∧
          passesFilters s.mem a.region.base len.toNat s.hr.panId) → t.txLog = s.txLog))

/-- R62: the transmit event's bytes are the finished frame: after SEND_ADV the buffer's first 16 bytes, after a reply the
26 bytes of `RBUF`, trailer included. -/
def Obligations.TransmitSnapshotsTheFinishedFrame : Prop :=
  (∀ (s t : State) (a : Attachment) (e : TxEvent), s.att = some a → exec .sendAdv s = .next t →
    t.txLog = s.txLog ++ [e] → e.bytes = Memory.readBytes t.mem a.region.base 16 ∧ e.bytes.drop 14 = [0x00, 0x00]) ∧
  (∀ (len : Half) (rx : Tick) (s t : State) (e : TxEvent), exec (.processRx len rx) s = .next t →
    t.txLog = s.txLog ++ [e] → e.bytes = Memory.readBytes t.rbuf 0 26 ∧ e.bytes.drop 24 = [0x00, 0x00])

/-- R147: a responder with `REPLY_SCHEDULE_DELAY` 1000 that receives, at 1400, an advertisement of its PAN by `0xcafe`
for transmit time 600 transmits one frame, to `0xcafe`, at 2400, whose payload is 600, 1400, 2400 as 40-bit big-endian
numbers. -/
def Obligations.ReplyToTheSourcesExample : Prop :=
  ∀ (s : State) (a : Attachment) (seq : Byte), s.att = some a → s.hr.initDone = true → 16 ≤ a.cap.toNat →
    s.params.replyScheduleDelay = 1000 →
    Memory.readBytes s.mem a.region.base 16 = advFrame seq s.hr.panId 0xcafe 600 →
    ∃ t e, exec (.processRx 16 1400) s = .next t ∧ t.txLog = s.txLog ++ [e] ∧ e.instant = 2400 ∧ e.len = 26 ∧
      (e.bytes.drop 5).take 2 = [0xfe, 0xca] ∧
      (e.bytes.drop 9).take 15 = [0x00, 0x00, 0x00, 0x02, 0x58, 0x00, 0x00, 0x00, 0x05, 0x78, 0x00, 0x00, 0x00, 0x09, 0x60]

/-- R148: a responder with `PAN_ID` `0xcafe` that receives a well-formed advertisement of PAN `0xbabc` transmits
nothing. -/
def Obligations.OtherPanIsNotAnswered : Prop :=
  ∀ (s : State) (a : Attachment) (seq : Byte) (src : Half) (ts rx : Tick), s.att = some a → s.hr.initDone = true →
    16 ≤ a.cap.toNat → s.hr.panId = 0xcafe → Memory.readBytes s.mem a.region.base 16 = advFrame seq 0xbabc src ts →
    ∃ t, exec (.processRx 16 rx) s = .next t ∧ t.txLog = s.txLog ∧ t.res = okResult

/-- R149: an otherwise valid advertisement whose destination is not broadcast is not answered, the responder's own
address included. -/
def Obligations.UnicastAdvertisementIsNotAnswered : Prop :=
  ∀ (s : State) (a : Attachment) (seq : Byte) (dst src : Half) (ts rx : Tick), s.att = some a →
    s.hr.initDone = true → 16 ≤ a.cap.toNat → dst ≠ 0xFFFF →
    Memory.readBytes s.mem a.region.base 16 = frameBytes seq s.hr.panId dst src (tsBytes ts) →
    ∃ t, exec (.processRx 16 rx) s = .next t ∧ t.txLog = s.txLog ∧ t.res = okResult

/-- What an advertiser gets from a reply (R86, P4 of 95_test_vectors.md): DECAP of the 26 bytes gives the reply's
addresses, sequence number 1 and payload length 15, and TS_READ at 0, 5 and 10 gives the three timestamps in order. -/
def Obligations.ReplyDecodesToItsThreeTimestamps : Prop :=
  ∀ (s : State) (a : Attachment) (panId dst addr : Half) (tAdv rx tReply : Tick), s.att = some a → 26 ≤ a.cap.toNat →
    Memory.readBytes s.mem a.region.base 26 = replyFrame panId dst addr tAdv rx tReply →
    ∃ t t1 t2 t3 v1 v2 v3, exec (.decap 26) s = .next t ∧
      t.res = { okResult with
        panId := some panId, src := some addr, dst := some dst, seq := some 1, payloadLen := some 15 } ∧
      exec (.tsRead 0) t = .next t1 ∧ t1.res = { okResult with ts := some v1 } ∧ v1.toNat = tAdv.toNat % 2 ^ 40 ∧
      exec (.tsRead 5) t1 = .next t2 ∧ t2.res = { okResult with ts := some v2 } ∧ v2.toNat = rx.toNat % 2 ^ 40 ∧
      exec (.tsRead 10) t2 = .next t3 ∧ t3.res = { okResult with ts := some v3 } ∧ v3.toNat = tReply.toNat % 2 ^ 40

/-! ### Errors (60_exceptions.md) -/

/-- R161 and R167: every command the host issues, legal or not, in every state, ends in a next state and reports at most
one error: if conditions of R161 hold, the first in R167's order (`commandError`), and nothing but `RES` changes; else
STATUS is OK and CAUSE is NONE. The codes are those of R161. (The descriptor without any byte, whose cause is the model's
choice of log 9, is EmptyDescriptorRaisesBadLength.) -/
def Obligations.EveryCommandReportsItsFirstError : Prop :=
  (∀ (s : State) (c : Command) (rest : List Delivery), s.inbox = .command c :: rest → c.desc ≠ [] →
    ∃ t, step s = .next t ∧
      match commandError c (accept c rest s) with
      | some (st, ca) => t = { accept c rest s with res := errorResult st ca, att := none }
      | none => t.res.status = some 0x00 ∧ t.res.cause = some 0x00) ∧
  [Status.malformedFrame, .bufferOverflow, .notInitialised, .illegalCommand].map statusCode = [0x01, 0x02, 0x03, 0x04] ∧
  [Cause.shortFrame, .badFrameControl, .frameExceedsBuffer, .lenExceedsBuffer, .fieldExceedsBuffer,
    .handlerUninitialised, .badOpcode, .badLength, .noBuffer].map causeCode =
      [0x01, 0x02, 0x03, 0x04, 0x05, 0x06, 0x07, 0x08, 0x09]

/-- R168: a command that raises, an illegal descriptor included, writes STATUS and CAUSE, every other result field holds
no value, and nothing else changes from the state in which it was accepted: no buffer, no handler register, not `RBUF`,
no log; no clock draw is taken. -/
def Obligations.ErrorsHaveNoOtherEffect : Prop :=
  ∀ (s t : State) (c : Command) (rest : List Delivery), s.inbox = .command c :: rest → step s = .next t →
    t.res.status ≠ some 0x00 →
    (∃ p ∈ errorPairs, t.res = errorResult p.1 p.2) ∧ t = { accept c rest s with res := t.res, att := none }

/-- R164: PREP_ADV, SEND_ADV and PROCESS_RX raise NOT_INITIALISED when `INIT_DONE` is 0, whatever the buffer's size and
contents. -/
def Obligations.HandlerCommandsNeedInit : Prop :=
  ∀ (i : Instr) (s : State) (a : Attachment),
    ((∃ ts, i = .prepAdv ts) ∨ i = .sendAdv ∨ (∃ len rx, i = .processRx len rx)) →
    s.att = some a → s.hr.initDone = false →
    exec i s = .next { s with res := errorResult .notInitialised .handlerUninitialised }

/-! ### State (10_state.md, 70_reset_and_hazards.md) -/

/-- The control state of R140: only INIT leads to READY, nothing leads back, and no command but INIT writes the
identity (R22, R23, R25). -/
def Obligations.OnlyInitWritesIdentityAndControlState : Prop :=
  ∀ (i : Instr) (s t : State), exec i s = .next t →
    (t.hr.initDone = true ↔ s.hr.initDone = true ∨ ∃ panId address, i = .init panId address) ∧
    ((∀ panId address, i ≠ .init panId address) → t.hr.panId = s.hr.panId ∧ t.hr.addr = s.hr.addr)

/-- R31: every command, an illegal one included, replaces the whole record: nothing depends on the old one, STATUS, CAUSE
and exactly the fields R30 lists for the command and outcome hold a value, and the host's read of any other field
faults. -/
def Obligations.EveryCommandReplacesTheResultRecord : Prop :=
  ∀ (s t : State) (c : Command) (rest : List Delivery), s.inbox = .command c :: rest → step s = .next t →
    (∀ r, step { s with res := r } = .next t) ∧
    (∀ f, (resultField t.res f).isSome = true ↔
      f = .resStatus ∨ f = .resCause ∨
        (t.res.status = some 0x00 ∧ ∃ i, decode c.desc = .ok i ∧ f ∈ Instr.produces i)) ∧
    (∀ f, resultField t.res f = none → hostRead f t = .error (.noValue f))

/-- R36: apart from `HR` no state written by one command is read by a later one: two states that agree on `HR`, the
parameters, the attached buffer, memory and the inputs, and differ at will in `RES`, `RBUF` and both logs, get the same
record, buffer contents and `HR`, and the same new log entries. -/
def Obligations.OnlyTheIdentityCarriesOver : Prop :=
  ∀ (i : Instr) (s t : State) (r : Result) (rb : Memory) (tx : List TxEvent) (clk : List Tick), exec i s = .next t →
    ∃ t' sent drawn, exec i { s with res := r, rbuf := rb, txLog := tx, clkLog := clk } = .next t' ∧
      t'.res = t.res ∧ t'.mem = t.mem ∧ t'.hr = t.hr ∧
      t.txLog = s.txLog ++ sent ∧ t'.txLog = tx ++ sent ∧ t.clkLog = s.clkLog ++ drawn ∧ t'.clkLog = clk ++ drawn

/-- ENCAP, DECAP, TS_WRITE and TS_READ neither read nor write the handler registers, `RBUF`, `TXLOG` or `CLKLOG`, and
need no INIT (R25, R192). -/
def Obligations.CodecCommandsIgnoreTheHandler : Prop :=
  ∀ (i : Instr) (s t : State) (h : Handler) (rb : Memory) (tx : List TxEvent) (clk : List Tick),
    ((∃ p q d n l, i = .encap p q d n l) ∨ (∃ l, i = .decap l) ∨ (∃ o ts, i = .tsWrite o ts) ∨ (∃ o, i = .tsRead o)) →
    exec i s = .next t →
    t.hr = s.hr ∧ t.rbuf = s.rbuf ∧ t.txLog = s.txLog ∧ t.clkLog = s.clkLog ∧
    exec i { s with hr := h, rbuf := rb, txLog := tx, clkLog := clk } =
      .next { t with hr := h, rbuf := rb, txLog := tx, clkLog := clk }

/-- After creation (R190): `INIT_DONE` is 0, no handler register and no result field holds a value, the logs are empty,
and the parameters are those chosen. The last clause is the model's choice of log 1: `State.reset` is the block created
with the reference parameters of R9. (The zeros behind the registers and `RBUF` are the model's, logs 2 and 4: nothing
is said of them here.) -/
def Obligations.CreationLeavesNoValueReadable : Prop :=
  ∀ p : Params,
    (State.create p).hr.initDone = false ∧
    readPanId (State.create p) = .error (.noValue .panId) ∧
    readAddr (State.create p) = .error (.noValue .addr) ∧
    readSeq (State.create p) = .error (.noValue .seq) ∧
    (∀ f, hostRead f (State.create p) = .error (.noValue f)) ∧
    (State.create p).txLog = [] ∧ (State.create p).clkLog = [] ∧ (State.create p).params = p ∧
    State.reset = State.create Params.reference

/-- A step changes no parameter, and the logs only grow: no event or draw is removed or changed (R27, R28, R33, R34). -/
def Obligations.ParametersStayAndLogsOnlyGrow : Prop :=
  ∀ s t : State, step s = .next t → t.params = s.params ∧ s.txLog <+: t.txLog ∧ s.clkLog <+: t.clkLog

/-- Blocks share no state (R176): when block `k` of a system takes a step, every other block is as it was, and block `k`
moves as `step` says. (That the caller memory beside another block is as it was, too, is the model's choice of log 18.) -/
def Obligations.BlocksOfASystemShareNoState : Prop :=
  ∀ (sys sys' : System) (k : Nat), System.stepAt k sys = .next sys' →
    sys'.length = sys.length ∧ (∀ j, j ≠ k → sys'[j]? = sys[j]?) ∧
    (∀ s, sys[k]? = some s → ∃ s', step s = .next s' ∧ sys'[k]? = some s')

/-- Blocks have clocks and draws of their own (R176, R9; the model's form of it, log 8): a created system holds one
created block for each choice of parameters, block `k` drawing from source `k`; every step and every delivery keeps
that; and so no two blocks ever draw from one source. -/
def Obligations.BlocksOfASystemDrawFromTheirOwnSources : Prop :=
  (∀ ps : List Params, System.numbered (System.create ps) ∧ (System.create ps).length = ps.length ∧
    ∀ k p, ps[k]? = some p → (System.create ps)[k]? = some { State.create p with drawSource := k }) ∧
  (∀ (sys sys' : System) (k : Nat), System.numbered sys → System.stepAt k sys = .next sys' → System.numbered sys') ∧
  (∀ (sys : System) (i n j buffer : Nat) (rx : Tick), System.numbered sys →
    System.numbered (System.carry i n j buffer rx sys)) ∧
  (∀ (sys : System) (j k : Nat) (s t : State), System.numbered sys → sys[j]? = some s → sys[k]? = some t → j ≠ k →
    s.drawSource ≠ t.drawSource)

/-! ### Runs -/

/-- The invariant holds of a block just created, whatever its parameters and whatever the host has for it. -/
def Obligations.CreatedBlocksMeetTheInvariant : Prop :=
  ∀ (p : Params) (s : State), Started p s → State.Inv s

/-- The invariant is kept by every step from every state that meets it: canonical memories, `RBUF` of 26 bytes, a legal
result record, every transmit event an advertisement or a reply whose payload carries its own instant, 40-bit instants
under `WRAP40`, silence before INIT, `SEQ` 0 under `NEVER`, each advertisement's instant the one of its own clock draw,
no attached buffer between commands. -/
def Obligations.EveryStepKeepsTheInvariant : Prop :=
  ∀ s t : State, State.Inv s → step s = .next t → State.Inv t

/-- The invariant of every state a created block reaches under any host and any clock. -/
def Obligations.ReachableBlocksMeetTheInvariant : Prop :=
  ∀ (p : Params) (s t : State), Started p s → Reaches s t → State.Inv t ∧ t.params = p

/-- Under the premise R173 allows, that clock values do not fall, and away from the 40-bit wrap (R201), the instants of a
block's advertisements do not fall either. -/
def Obligations.MonotonicClockGivesMonotonicInstants : Prop :=
  ∀ s : State, State.Inv s → clockMonotonic s.clkLog →
    (∀ t ∈ s.clkLog, t.toNat + s.params.replyScheduleDelay.toNat < 2 ^ 40) →
    (s.txLog.filter fun e => e.len == 16).Pairwise fun e f => e.instant.toNat ≤ f.instant.toNat

/-- No condition is fatal (R179, and "No behaviour of the block is treated as stuck"): under a host that serialises its
commands a run of any length, over any descriptors, buffers, states and clock values, ends in a next state. -/
def Obligations.NoRunOfASerialisedHostStops : Prop :=
  ∀ (n : Nat) (s : State), Serialised s → ∃ t, Host.Core.run core n s = .next t ∧ t.inbox = s.inbox.drop n

/-- The exchange of R147 and P4 in general: for any two READY blocks of one PAN, an advertiser whose next command is
SEND_ADV in a buffer of 16 bytes or more, and an idle responder, once the radio carries the new event over with
receive time `rx`: the responder transmits exactly one reply, addressed to the advertiser, carrying the advertised
instant's low 40 bits, `rx` and its own transmit instant. The delivery is the model's operation of log 12: the frame as
transmitted, at the start of a buffer of the frame's length. -/
def Obligations.TwoNodesExchangeAdvertisementAndReply : Prop :=
  ∀ (p q : State) (c : Command) (rest : List Delivery) (a : Attachment) (buf : Nat) (rx : Tick),
    p.inbox = .command c :: rest → c.desc = encode .sendAdv → c.attach = some a → 16 ≤ a.cap.toNat →
    p.hr.initDone = true → q.hr.initDone = true → q.hr.panId = p.hr.panId → q.inbox = [] →
    ∃ p' q' sched tReply, sched = tsAdd p.params.tsArith (nextClock p) p.params.replyScheduleDelay ∧
      tReply = tsAdd q.params.tsArith rx q.params.replyScheduleDelay ∧
      System.stepAt 0 [p, q] = .next [p', q] ∧
      System.stepAt 1 (System.carry 0 p.txLog.length 1 buf rx [p', q]) = .next [p', q'] ∧
      p'.txLog = p.txLog ++ [{ instant := sched, bytes := advFrame p.hr.seq p.hr.panId p.hr.addr sched, len := 16 }] ∧
      q'.txLog = q.txLog ++ [{
        instant := tReply
        bytes := replyFrame q.hr.panId p.hr.addr q.hr.addr (BitVec.ofNat 64 (sched.toNat % 2 ^ 40)) rx tReply
        len := 26 }] ∧
      q'.clkLog = q.clkLog
end

