-- ==== Sys2Proof/Laws/Codec.lean ====
section
/-! SUPPORT. The laws of the field codecs that the proofs about frames and timestamps cite: little-endian 16-bit fields
(R14, R54), and what a timestamp field and a scheduled instant are as numbers (R121, R122, R126). -/

namespace Sys2Proof.Machine

/-- Reading a 16-bit field back from the two bytes it was written as (R14, R54). -/
theorem le16_le16Bytes (v : Half) : le16 (v.extractLsb' 0 8) (v.extractLsb' 8 8) = v := by
  apply BitVec.eq_of_toNat_eq
  simp only [le16, BitVec.toNat_ofNat, BitVec.extractLsb'_toNat]
  omega

/-- The number in a 5-byte big-endian sequence (R122). -/
theorem tsValue_toNat (b0 b1 b2 b3 b4 : Byte) :
    (tsValue [b0, b1, b2, b3, b4]).toNat =
      b0.toNat * 2 ^ 32 + b1.toNat * 2 ^ 24 + b2.toNat * 2 ^ 16 + b3.toNat * 2 ^ 8 + b4.toNat := by
  have h0 := b0.isLt; have h1 := b1.isLt; have h2 := b2.isLt; have h3 := b3.isLt; have h4 := b4.isLt
  simp only [tsValue, beNat, List.foldl, BitVec.toNat_ofNat]
  omega

/-- A scheduled instant as a number (R126). -/
theorem tsAdd_toNat (mode : TsArith) (t : Tick) (d : BitVec 40) :
    (tsAdd mode t d).toNat = match mode with
      | .wrap40 => (t.toNat + d.toNat) % 2 ^ 40
      | .wrap64 => (t.toNat + d.toNat) % 2 ^ 64 := by
  cases mode <;> simp [tsAdd]
  omega

/-- The five bytes depend on bits 39:0 alone (R121). -/
theorem tsBytes_eq_of_mod {t u : Tick} (h : t.toNat % 2 ^ 40 = u.toNat % 2 ^ 40) : tsBytes t = tsBytes u := by
  simp only [tsBytes, List.cons.injEq, and_true]
  refine ⟨?_, ?_, ?_, ?_, ?_⟩ <;> apply BitVec.eq_of_toNat_eq <;>
    simp only [BitVec.extractLsb'_toNat, Nat.shiftRight_eq_div_pow] <;> omega

end Sys2Proof.Machine
end

