-- ==== Sys2Proof/Laws/Decode.lean ====
section
/-! SUPPORT. The laws of operand assembly (R71, R73): a number and its little-endian bytes determine each other. -/

namespace Sys2Proof

@[simp] theorem leBytes_length (n v : Nat) : (leBytes n v).length = n := by
  induction n generalizing v with
  | zero => rfl
  | succ n ih => simp [leBytes, ih]

/-- Assembling the bytes of a number gives the number back, up to their count (R73). -/
theorem leNat_leBytes (n v : Nat) : leNat (leBytes n v) = v % 256 ^ n := by
  induction n generalizing v with
  | zero => simp [leBytes, leNat, Nat.mod_one]
  | succ n ih =>
    simp only [leBytes, leNat, ih, BitVec.toNat_ofNat]
    rw [show 256 ^ (n + 1) = 256 * 256 ^ n from Nat.pow_succ', Nat.mod_mul (a := 256) (b := 256 ^ n)]

/-- The value of `n` bytes is below `256 ^ n`. -/
theorem leNat_lt (s : List Byte) : leNat s < 256 ^ s.length := by
  induction s with
  | nil => simp [leNat]
  | cons b s ih =>
    have := b.isLt
    simp only [leNat, List.length_cons, Nat.pow_succ']
    omega

/-- Spelling the value of a byte sequence gives the sequence back (R71). -/
theorem leBytes_leNat (s : List Byte) : leBytes s.length (leNat s) = s := by
  induction s with
  | nil => rfl
  | cons b s ih =>
    have hb := b.isLt
    simp only [List.length_cons, leBytes, leNat]
    congr 1
    · apply BitVec.eq_of_toNat_eq; simp only [BitVec.toNat_ofNat]; omega
    · rw [show (b.toNat + 256 * leNat s) / 256 = leNat s by omega, ih]

/-- An operand is the number whose bytes stand at its place in the descriptor (R71, R73). -/
theorem operand_leBytes {w k n v : Nat} (pre post : List Byte) (hk : pre.length = k) (hv : v < 256 ^ n) :
    operand w (pre ++ (leBytes n v ++ post)) k n = BitVec.ofNat w v := by
  subst hk
  simp [operand, leNat_leBytes, Nat.mod_eq_of_lt hv]

/-- The bytes at an operand's place are those of its value (R71, R73). -/
theorem leBytes_operand {w k n : Nat} (d : List Byte) (hd : k + n ≤ d.length) (hw : 256 ^ n = 2 ^ w) :
    leBytes n (operand w d k n).toNat = (d.drop k).take n := by
  have hl : ((d.drop k).take n).length = n := by simp; omega
  have hlt := leNat_lt ((d.drop k).take n)
  rw [hl, hw] at hlt
  rw [operand, BitVec.toNat_ofNat, Nat.mod_eq_of_lt hlt]
  conv_rhs => rw [← leBytes_leNat ((d.drop k).take n), hl]

end Sys2Proof
end

