-- ==== Sys2Proof/Laws/Memory.lean ====
section
/-! SUPPORT. The laws of memory: read after write, frames of the bulk operations, and that every memory operation
keeps the canonical form. -/

namespace Sys2Proof.Machine

/-! ### One byte -/

theorem Memory.read_erase (m : Memory) (a x : Nat) :
    Memory.read (Memory.erase m a) x = if x = a then Memory.unlisted else Memory.read m x := by
  induction m with
  | nil => simp [Memory.erase, Memory.read]
  | cons c m ih =>
    obtain ⟨b, v⟩ := c
    simp only [Memory.erase] at ih ⊢
    by_cases hb : b = a
    · subst hb
      simp only [bne_self_eq_false, Bool.false_eq_true, not_false_eq_true, List.filter_cons_of_neg, ih, Memory.read]
      by_cases hx : x = b
      · simp [hx]
      · simp [hx, Ne.symm hx]
    · have : (b != a) = true := by simpa using hb
      rw [List.filter_cons_of_pos (by simpa using hb)]
      simp only [Memory.read, ih]
      by_cases hx : b = x
      · subst hx; simp [hb]
      · simp [hx]

theorem Memory.read_insert (m : Memory) (a x : Nat) (v : Byte) (h : ∀ c ∈ m, c.1 ≠ a) :
    Memory.read (Memory.insert m a v) x = if x = a then v else Memory.read m x := by
  induction m with
  | nil => simp [Memory.insert, Memory.read, eq_comm]
  | cons c m ih =>
    have hc : c.1 ≠ a := h c (by simp)
    have ih := ih fun d hd => h d (by simp [hd])
    unfold Memory.insert
    split
    · simp only [Memory.read, ih]
      by_cases hx : c.1 = x
      · subst hx; simp [hc]
      · simp [hx]
    · simp [Memory.read, eq_comm]

/-- Reading after writing one byte. -/
@[simp] theorem Memory.read_write (m : Memory) (a x : Nat) (v : Byte) :
    Memory.read (Memory.write m a v) x = if x = a then v else Memory.read m x := by
  unfold Memory.write
  split
  · rename_i h; rw [Memory.read_erase, h]
  · rw [Memory.read_insert _ _ _ _ (by simp [Memory.erase]), Memory.read_erase]
    split <;> simp [*]

/-! ### The canonical form -/

theorem Memory.wf_erase {m : Memory} (h : Memory.wf m) (a : Nat) : Memory.wf (Memory.erase m a) :=
  ⟨h.1.filter _, fun c hc => h.2 c (List.mem_filter.mp hc).1⟩

theorem Memory.mem_insert {m : Memory} {a : Nat} {v : Byte} {c : Host.Cell}
    (h : c ∈ Memory.insert m a v) : c = (a, v) ∨ c ∈ m := by
  induction m with
  | nil => simpa [Memory.insert] using h
  | cons d m ih =>
    unfold Memory.insert at h
    split at h
    · rcases List.mem_cons.mp h with rfl | h
      · simp
      · rcases ih h with h | h <;> simp [h]
    · simpa using h

theorem Memory.wf_insert {m : Memory} (h : Memory.wf m) {a : Nat} {v : Byte} (hv : v ≠ Memory.unlisted)
    (ha : ∀ c ∈ m, c.1 ≠ a) : Memory.wf (Memory.insert m a v) := by
  refine ⟨?_, fun c hc => ?_⟩
  · induction m with
    | nil => simp [Memory.insert]
    | cons d m ih =>
      have hd := List.pairwise_cons.mp h.1
      unfold Memory.insert
      split
      · rename_i hlt
        refine List.pairwise_cons.mpr ⟨fun c hc => ?_, ?_⟩
        · rcases Memory.mem_insert hc with rfl | hc
          · exact hlt
          · exact hd.1 c hc
        · exact ih ⟨hd.2, fun c hc => h.2 c (by simp [hc])⟩ fun c hc => ha c (by simp [hc])
      · rename_i hge
        have hne := ha d (by simp)
        refine List.pairwise_cons.mpr ⟨fun c hc => ?_, h.1⟩
        rcases List.mem_cons.mp hc with rfl | hc
        · simp only; omega
        · have := hd.1 c hc; simp only; omega
  · rcases Memory.mem_insert hc with rfl | hc
    · exact hv
    · exact h.2 c hc

/-- Writing a byte keeps the canonical form. -/
theorem Memory.wf_write {m : Memory} (h : Memory.wf m) (a : Nat) (v : Byte) : Memory.wf (Memory.write m a v) := by
  unfold Memory.write
  split
  · exact Memory.wf_erase h a
  · exact Memory.wf_insert (Memory.wf_erase h a) ‹_› (by simp [Memory.erase])

/-- Writing a byte sequence keeps the canonical form. -/
theorem Memory.wf_writeBytes {m : Memory} (h : Memory.wf m) (a : Nat) (s : List Byte) :
    Memory.wf (Memory.writeBytes m a s) := by
  induction s generalizing m a with
  | nil => exact h
  | cons v s ih => exact ih (Memory.wf_write h a v) (a + 1)

/-- The host's own stores keep the canonical form. -/
theorem hostStores_wf {m : Memory} (h : Memory.wf m) (cells : List Host.Cell) : Memory.wf (hostStores m cells) := by
  induction cells generalizing m with
  | nil => exact h
  | cons c cells ih => exact ih (Memory.wf_write h c.1 c.2)

/-- Addresses below a bound stay below it when only such addresses are written. -/
theorem Memory.write_addr_lt {m : Memory} {n : Nat} (h : ∀ c ∈ m, c.1 < n) {a : Nat} (ha : a < n) (v : Byte) :
    ∀ c ∈ Memory.write m a v, c.1 < n := by
  intro c hc
  unfold Memory.write at hc
  split at hc
  · exact h c (List.mem_filter.mp hc).1
  · rcases Memory.mem_insert hc with rfl | hc
    · exact ha
    · exact h c (List.mem_filter.mp hc).1

theorem Memory.writeBytes_addr_lt {m : Memory} {n : Nat} (h : ∀ c ∈ m, c.1 < n) (a : Nat) (s : List Byte)
    (ha : a + s.length ≤ n) : ∀ c ∈ Memory.writeBytes m a s, c.1 < n := by
  induction s generalizing m a with
  | nil => exact h
  | cons v s ih =>
    simp only [List.length_cons] at ha
    exact ih (Memory.write_addr_lt h (by omega) v) (a + 1) (by omega)

/-! ### Byte sequences -/

@[simp] theorem Memory.readBytes_length (m : Memory) (a n : Nat) : (Memory.readBytes m a n).length = n := by
  induction n generalizing a with
  | zero => rfl
  | succ n ih => simp [Memory.readBytes, ih]

/-- Byte `i` of a sequence read from `a` is the byte at `a + i`. -/
@[simp] theorem Memory.readBytes_getElem? (m : Memory) (a n i : Nat) :
    (Memory.readBytes m a n)[i]? = if i < n then some (Memory.read m (a + i)) else none := by
  induction n generalizing a i with
  | zero => simp [Memory.readBytes]
  | succ n ih =>
    cases i with
    | zero => simp [Memory.readBytes]
    | succ i => simp [Memory.readBytes, ih, Nat.add_comm, Nat.add_left_comm]

/-- Reading one byte after writing a sequence. -/
theorem Memory.read_writeBytes (m : Memory) (a x : Nat) (s : List Byte) :
    Memory.read (Memory.writeBytes m a s) x =
      if a ≤ x ∧ x < a + s.length then (s[x - a]?).getD 0 else Memory.read m x := by
  induction s generalizing m a with
  | nil => simp [Memory.writeBytes]
  | cons v s ih =>
    simp only [Memory.writeBytes, ih, Memory.read_write, List.length_cons]
    by_cases h0 : x = a
    · subst h0; simp
    · by_cases h1 : a + 1 ≤ x
      · have : x - a = (x - (a + 1)) + 1 := by omega
        simp only [this, List.getElem?_cons_succ, h0, if_false]
        congr 1; simp; omega
      · have h2 : ¬ a ≤ x := by omega
        simp [h0, h1, h2]

/-- A byte outside the written range reads as before. -/
theorem Memory.read_writeBytes_outside (m : Memory) {a x : Nat} {s : List Byte}
    (h : ¬ (a ≤ x ∧ x < a + s.length)) : Memory.read (Memory.writeBytes m a s) x = Memory.read m x := by
  rw [Memory.read_writeBytes, if_neg h]

/-- A byte inside the written range reads as written. -/
theorem Memory.read_writeBytes_inside (m : Memory) {a i : Nat} {s : List Byte} (h : i < s.length) :
    Memory.read (Memory.writeBytes m a s) (a + i) = s[i] := by
  rw [Memory.read_writeBytes, if_pos ⟨by omega, by omega⟩]; simp [h]

/-- Two byte sequences read from memories that agree byte by byte are equal. -/
theorem Memory.readBytes_congr {m m' : Memory} {a a' n : Nat}
    (h : ∀ i < n, Memory.read m (a + i) = Memory.read m' (a' + i)) :
    Memory.readBytes m a n = Memory.readBytes m' a' n := by
  apply List.ext_getElem?
  intro i
  simp only [Memory.readBytes_getElem?]
  split
  · rw [h i ‹_›]
  · rfl

/-- Reading back exactly what was written. -/
@[simp] theorem Memory.readBytes_writeBytes (m : Memory) (a : Nat) (s : List Byte) :
    Memory.readBytes (Memory.writeBytes m a s) a s.length = s := by
  apply List.ext_getElem?
  intro i
  rw [Memory.readBytes_getElem?]
  split
  · rw [Memory.read_writeBytes_inside m ‹_›]; simp [*]
  · simp; omega

/-- What a sequence of bytes in memory says about each of its addresses. -/
theorem Memory.read_of_readBytes {m : Memory} {a n i : Nat} {s : List Byte} (h : Memory.readBytes m a n = s)
    (hi : i < n) : some (Memory.read m (a + i)) = s[i]? := by
  rw [← h, Memory.readBytes_getElem?, if_pos hi]

/-- A canonical memory's first entries decide its reads. -/
theorem Memory.read_eq_unlisted {m : Memory} {a : Nat} (h : ∀ c ∈ m, a < c.1) :
    Memory.read m a = Memory.unlisted := by
  induction m with
  | nil => rfl
  | cons c m ih =>
    have hc := h c (by simp)
    rw [Memory.read, if_neg (by omega)]
    exact ih fun d hd => h d (by simp [hd])

end Sys2Proof.Machine
end

