-- ==== Sys2Proof/Laws/Ops.lean ====
section
/-! SUPPORT. One law per shared operation: what it answers inside its range, what it writes, and what it leaves alone.
The proofs about commands cite these and do not unfold the operations. -/

namespace Sys2Proof.Machine

/-! ### The primitives inside their range (R13) -/

theorem memRead_ok {r : Region} {o n : Nat} (m : Memory) (h : o + n ≤ r.cap) :
    memRead r m o n = .ok (Memory.readBytes m (r.base + o) n) := if_pos h

theorem memWrite_ok {r : Region} {o : Nat} {s : List Byte} (m : Memory) (h : o + s.length ≤ r.cap) :
    memWrite r m o s = .ok (Memory.writeBytes m (r.base + o) s) := if_pos h

theorem memByte_ok {r : Region} {o : Nat} (m : Memory) (h : o < r.cap) :
    memByte r m o = .ok (Memory.read m (r.base + o)) := if_pos h

theorem putLe16_ok {r : Region} {o : Nat} (m : Memory) (v : Half) (h : o + 2 ≤ r.cap) :
    putLe16 r m o v = .ok (Memory.writeBytes m (r.base + o) (le16Bytes v)) :=
  memWrite_ok m h

theorem getLe16_ok {r : Region} {o : Nat} (m : Memory) (h : o + 2 ≤ r.cap) :
    getLe16 r m o = .ok (le16 (Memory.read m (r.base + o)) (Memory.read m (r.base + (o + 1)))) := by
  simp [getLe16, memByte_ok m (show o < r.cap by omega), memByte_ok m (show o + 1 < r.cap by omega), bind,
    Except.bind, pure, Except.pure]

/-- `MemMove` copies as if through a temporary (R60). -/
theorem memMove_ok {r : Region} {d s n : Nat} (m : Memory) (hd : d + n ≤ r.cap) (hs : s + n ≤ r.cap) :
    memMove r m d s n = .ok (Memory.writeBytes m (r.base + d) (Memory.readBytes m (r.base + s) n)) := by
  simp only [memMove, memRead_ok m hs, bind, Except.bind]
  exact memWrite_ok m (by simpa using hd)

@[simp] theorem readHeld_some {α : Type} (f : Field) (v : α) : readHeld f (some v) = .ok v := rfl

@[simp] theorem readHeld_none {α : Type} (f : Field) : readHeld f (none : Option α) = .error (.noValue f) := rfl

theorem held_ready {α : Type} {h : Handler} (hi : h.initDone = true) (v : α) : h.held v = some v := if_pos hi

theorem held_uninit {α : Type} {h : Handler} (hi : h.initDone = false) (v : α) : h.held v = none := by
  simp [Handler.held, hi]

/-- The registers hold values in control state READY (R140). -/
theorem readPanId_ok {s : State} (h : s.hr.initDone = true) : readPanId s = .ok s.hr.panId := by
  simp [readPanId, held_ready h]

theorem readAddr_ok {s : State} (h : s.hr.initDone = true) : readAddr s = .ok s.hr.addr := by
  simp [readAddr, held_ready h]

theorem readSeq_ok {s : State} (h : s.hr.initDone = true) : readSeq s = .ok s.hr.seq := by
  simp [readSeq, held_ready h]

theorem withBuffer_some {s : State} {a : Attachment} (h : s.att = some a)
    (k : Region → Host.Outcome State Fault Refusal) : withBuffer s k = k a.region := by
  simp [withBuffer, h]

theorem withBuffer_none {s : State} (h : s.att = none)
    (k : Region → Host.Outcome State Fault Refusal) : withBuffer s k = raise .illegalCommand .noBuffer s := by
  simp [withBuffer, h]

theorem requireInit_ready {s : State} (h : s.hr.initDone = true) (k : Handler → Host.Outcome State Fault Refusal) :
    requireInit s k = k s.hr := if_pos h

theorem requireInit_uninit {s : State} (h : s.hr.initDone = false) (k : Handler → Host.Outcome State Fault Refusal) :
    requireInit s k = raise .notInitialised .handlerUninitialised s := by
  simp [requireInit, h]

/-! ### Lengths -/

@[simp] theorem le16Bytes_length (v : Half) : (le16Bytes v).length = 2 := rfl

@[simp] theorem tsBytes_length (t : Tick) : (tsBytes t).length = 5 := rfl

@[simp] theorem freeBytes_length (source first n : Nat) : (freeBytes source first n).length = n := by simp [freeBytes]

@[simp] theorem frameBytes_length (seq : Byte) (p d s : Half) (payload : List Byte) :
    (frameBytes seq p d s payload).length = payload.length + 11 := by simp [frameBytes]; omega

@[simp] theorem advFrame_length (seq : Byte) (p a : Half) (t : Tick) : (advFrame seq p a t).length = 16 := by
  simp [advFrame]

@[simp] theorem replyFrame_length (p d a : Half) (t u v : Tick) : (replyFrame p d a t u v).length = 26 := by
  simp [replyFrame]

/-! ### The ENCAP body (R100 to R104) -/

/-- Bytes 0 to 8 of a frame, its payload, and its trailer. -/
theorem frameBytes_eq (seq : Byte) (p d s : Half) (payload : List Byte) :
    frameBytes seq p d s payload =
      [0x41, 0x88, seq, p.extractLsb' 0 8, p.extractLsb' 8 8, d.extractLsb' 0 8, d.extractLsb' 8 8,
        s.extractLsb' 0 8, s.extractLsb' 8 8] ++ (payload ++ [0x00, 0x00]) := by
  simp [frameBytes, le16Bytes]

/-- The ENCAP body inside its range: it answers a memory that holds the frame of R77 with the old payload, and
nothing else changed (R100 to R104). -/
theorem encapBody_spec {r : Region} {n : Nat} (m : Memory) (p s d : Half) (seq : Byte) (h : n + 11 ≤ r.cap) :
    ∃ m', encapBody r m p s d seq n = .ok m' ∧
      Memory.readBytes m' r.base (n + 11) = frameBytes seq p d s (Memory.readBytes m r.base n) ∧
      sameOutside m m' r.base (n + 11) ∧ (Memory.wf m → Memory.wf m') ∧
      (∀ k, (∀ c ∈ m, c.1 < k) → r.base + (n + 11) ≤ k → ∀ c ∈ m', c.1 < k) := by
  simp only [encapBody, bind, Except.bind, memMove_ok m (show 9 + n ≤ r.cap by omega) (show 0 + n ≤ r.cap by omega)]
  rw [memWrite_ok _ (by simp; omega)]; dsimp only
  rw [memWrite_ok _ (by simp; omega)]; dsimp only
  rw [memWrite_ok _ (by simp; omega)]; dsimp only
  rw [putLe16_ok _ _ (by omega)]; dsimp only
  rw [putLe16_ok _ _ (by omega)]; dsimp only
  rw [putLe16_ok _ _ (by omega)]; dsimp only
  rw [memWrite_ok _ (by simp; omega)]
  refine ⟨_, rfl, ?_, ?_, ?_, ?_⟩
  · apply List.ext_getElem?
    intro i
    rw [frameBytes_eq, Memory.readBytes_getElem?]
    by_cases hi : i < 9
    · rw [Memory.read_writeBytes_outside _ (by simp; omega)]
      simp only [Memory.read_writeBytes, le16Bytes, List.length_cons, List.length_nil]
      rw [List.getElem?_append_left (by simpa using hi)]
      interval_cases i <;> simp [Config.FC0, Config.FC1]
    · obtain ⟨j, rfl⟩ := Nat.exists_eq_add_of_le (show 9 ≤ i by omega)
      rw [List.getElem?_append_right (by simp)]
      simp only [List.length_cons, List.length_nil]
      by_cases hj : j < n
      · have h1 : 9 + j < n + 11 := by omega
        rw [if_pos h1, List.getElem?_append_left (by simp; omega)]
        iterate 7 rw [Memory.read_writeBytes_outside _ (by simp <;> omega)]
        rw [← Nat.add_assoc r.base 9 j, Memory.read_writeBytes_inside _ (by simpa using hj)]
        simp [hj]
      · obtain ⟨k, rfl⟩ := Nat.exists_eq_add_of_le (show n ≤ j by omega)
        rw [List.getElem?_append_right (by simp)]
        by_cases hk : k < 2
        · rw [if_pos (by omega), show r.base + (9 + (n + k)) = r.base + (9 + n) + k by omega,
            Memory.read_writeBytes_inside _ (by simpa using hk)]
          interval_cases k <;> simp
        · rw [if_neg (by omega)]
          simp; omega
  · intro x hx
    iterate 8 rw [Memory.read_writeBytes_outside _ (by simp; omega)]
  · intro hm
    exact Memory.wf_writeBytes (Memory.wf_writeBytes (Memory.wf_writeBytes (Memory.wf_writeBytes
      (Memory.wf_writeBytes (Memory.wf_writeBytes (Memory.wf_writeBytes (Memory.wf_writeBytes hm _ _) _ _) _ _)
        _ _) _ _) _ _) _ _) _ _
  · intro k hk hb
    iterate 8 refine Memory.writeBytes_addr_lt ?_ _ _ (by simp; omega)
    exact hk

/-! ### The advertisement and the reply (R87, R88) -/

/-- Building an advertisement in a buffer of 16 bytes or more: the frame of R87, nothing else changed. -/
theorem buildAdv_spec {r : Region} (t : Tick) (hr : Handler) (m : Memory) (h : 16 ≤ r.cap) :
    ∃ m', buildAdv r t hr m = .ok m' ∧
      Memory.readBytes m' r.base 16 = advFrame hr.seq hr.panId hr.addr t ∧
      sameOutside m m' r.base 16 ∧ (Memory.wf m → Memory.wf m') := by
  obtain ⟨m', he, hf, ho, hw, -⟩ := encapBody_spec (r := r) (n := 5)
    (Memory.writeBytes m (r.base + 0) (tsBytes t)) hr.panId hr.addr Config.BROADCAST hr.seq (by omega)
  refine ⟨m', ?_, ?_, ?_, fun hm => hw (Memory.wf_writeBytes hm _ _)⟩
  · simp only [buildAdv, bind, Except.bind]
    rw [memWrite_ok _ (by simp; omega)]
    exact he
  · rw [hf, advFrame]
    congr 1
    exact Memory.readBytes_writeBytes m r.base (tsBytes t)
  · intro x hx
    rw [ho x hx, Memory.read_writeBytes_outside _ (by simp; omega)]

/-- Building a reply: the frame of R88 in bytes 0 to 25 of `RBUF`, and no byte past them. -/
theorem buildReply_spec (rb : Memory) (pan src addr : Half) (tAdv rx tReply : Tick) :
    ∃ m', buildReply rb pan src addr tAdv rx tReply = .ok m' ∧
      Memory.readBytes m' 0 26 = replyFrame pan src addr tAdv rx tReply ∧
      (Memory.wf rb → Memory.wf m') ∧ ((∀ c ∈ rb, c.1 < 26) → ∀ c ∈ m', c.1 < 26) := by
  have hc : rbufRegion.cap = 26 := rfl
  have hb : rbufRegion.base = 0 := rfl
  simp only [buildReply, bind, Except.bind]
  rw [memWrite_ok _ (by simp [hc])]; dsimp only
  rw [memWrite_ok _ (by simp [hc])]; dsimp only
  rw [memWrite_ok _ (by simp [hc])]; dsimp only
  rw [putLe16_ok _ _ (by simp [hc])]; dsimp only
  rw [putLe16_ok _ _ (by simp [hc])]; dsimp only
  rw [putLe16_ok _ _ (by simp [hc])]; dsimp only
  rw [memWrite_ok _ (by simp [hc])]; dsimp only
  rw [memWrite_ok _ (by simp [hc])]
  refine ⟨_, rfl, ?_, ?_, ?_⟩
  · apply List.ext_getElem?
    intro i
    rw [Memory.readBytes_getElem?]
    by_cases hi : i < 26
    · simp only [Memory.read_writeBytes, le16Bytes, tsBytes, List.length_cons, List.length_nil, hb, replyFrame,
        frameBytes]
      interval_cases i <;> simp [Config.FC0, Config.FC1, Config.REPLY_SEQ]
    · simp [hi]
  · intro hm
    exact Memory.wf_writeBytes (Memory.wf_writeBytes (Memory.wf_writeBytes (Memory.wf_writeBytes
      (Memory.wf_writeBytes (Memory.wf_writeBytes (Memory.wf_writeBytes (Memory.wf_writeBytes hm _ _) _ _) _ _)
        _ _) _ _) _ _) _ _) _ _
  · intro hk
    iterate 8 refine Memory.writeBytes_addr_lt ?_ _ _ (by simp [hb])
    exact hk

/-! ### Decapsulation (R106) -/

/-- The header fields of the frame at the start of a byte array (R77, R106). -/
def headerOf (m : Memory) (base len : Nat) : Decoded :=
  { seq := Memory.read m (base + 2)
    panId := le16 (Memory.read m (base + 3)) (Memory.read m (base + 4))
    dst := le16 (Memory.read m (base + 5)) (Memory.read m (base + 6))
    src := le16 (Memory.read m (base + 7)) (Memory.read m (base + 8))
    payloadLen := len - 11 }

/-- Decapsulation of a frame inside the buffer: the fields, and the payload moved to the start (R106). -/
theorem decapsulate_ok {r : Region} {len : Nat} (m : Memory) (h1 : 11 ≤ len) (h2 : len ≤ r.cap) :
    decapsulate r m len = .ok (headerOf m r.base len,
      Memory.writeBytes m r.base (Memory.readBytes m (r.base + 9) (len - 11))) := by
  simp only [decapsulate, bind, Except.bind, Config.MIN_FRAME_LEN]
  rw [memByte_ok _ (by omega), getLe16_ok _ (by omega), getLe16_ok _ (by omega), getLe16_ok _ (by omega),
    memMove_ok _ (by omega) (by omega)]
  rfl

/-- The frame-control test inside the buffer (R107 check 3). -/
theorem frameControlOk_ok {r : Region} (m : Memory) (h : 2 ≤ r.cap) :
    frameControlOk r m =
      .ok (Memory.read m r.base == Config.FC0 && Memory.read m (r.base + 1) == Config.FC1) := by
  simp only [frameControlOk, bind, Except.bind]
  rw [memByte_ok _ (by omega), memByte_ok _ (by omega)]
  rfl

/-- The checks of R107 all at once: the first condition that holds is raised, else the command goes on. -/
theorem checkFrame_eq (r : Region) (len : Nat) (s : State) (k : Host.Outcome State Fault Refusal) :
    checkFrame r len s k =
      if r.cap < len then raise .bufferOverflow .lenExceedsBuffer s
      else match frameError r len s.mem with
        | some (st, c) => raise st c s
        | none => k := by
  by_cases hc : r.cap < len
  · simp [checkFrame, hc]
  by_cases hl : len < 11
  · simp [checkFrame, frameError, hc, hl, Config.MIN_FRAME_LEN]
  have hf := frameControlOk_ok s.mem (show 2 ≤ r.cap by omega)
  have h0 : (Memory.read s.mem r.base == Config.FC0) = decide (Memory.read s.mem r.base = 0x41) := rfl
  have h1 : (Memory.read s.mem (r.base + 1) == Config.FC1) = decide (Memory.read s.mem (r.base + 1) = 0x88) := rfl
  simp only [checkFrame, frameError, hc, hl, Config.MIN_FRAME_LEN, if_false, hf, h0, h1]
  by_cases e0 : Memory.read s.mem r.base = 0x41 <;> by_cases e1 : Memory.read s.mem (r.base + 1) = 0x88 <;>
    simp only [e0, e1, decide_true, decide_false, Bool.and_true, Bool.and_false, ne_eq,
      not_true_eq_false, not_false_eq_true, or_true, or_false, or_self, if_true, if_false]

/-! ### Draws (R108, R143) -/

/-- Filling part of a buffer with draws: each byte is a free value of its own, nothing else changes. -/
theorem fillDraws_ok {r : Region} {o n : Nat} (s : State) (h : o + n ≤ r.cap) :
    fillDraws r o n s = .ok { s with
      mem := Memory.writeBytes s.mem (r.base + o) (freeBytes s.drawSource s.drawCount n), drawCount := s.drawCount + n } := by
  simp only [fillDraws, bind, Except.bind]
  rw [memWrite_ok _ (by simpa using h)]
  rfl

/-- The end of a drop or a reply: the whole buffer is drawn and the status is OK (R136, R143). -/
theorem finishRx_ok (r : Region) (s : State) :
    finishRx r s = .ok { s with
      mem := Memory.writeBytes s.mem r.base (freeBytes s.drawSource s.drawCount r.cap), drawCount := s.drawCount + r.cap,
      res := okResult } := by
  simp only [finishRx, bind, Except.bind]
  rw [fillDraws_ok _ (by omega)]
  rfl

/-- A byte of a drawn range is the free value of its place. -/
theorem read_freeBytes {m : Memory} {a source first n i : Nat} (h : i < n) :
    Memory.read (Memory.writeBytes m a (freeBytes source first n)) (a + i) = Config.freeByte source (first + i) := by
  rw [Memory.read_writeBytes_inside _ (by simpa using h)]
  simp [freeBytes]

end Sys2Proof.Machine
end

