-- ==== Sys2Proof/Laws/PerInstr.lean ====
section
/-! SUPPORT. Statements made per instruction: the descriptor the encoder writes is legal (R72, R74), and the decoder
reads it back with every operand at every value (R71 to R73). -/

namespace Sys2Proof.Laws

/-- The encoder's descriptor is legal in the opcode map, and the map says the same of the buffer (R72, R74). -/
def EncodeLegal.Statement (i : Instr) : Prop :=
  descriptorLegal (encode i) = true ∧ (opcodeRow (encode i)).map OpcodeRow.buffer = some i.needsBuffer

theorem EncodeLegal.init (p a : Half) : EncodeLegal.Statement (.init p a) := ⟨rfl, rfl⟩

theorem EncodeLegal.encap (p s d : Half) (q : Byte) (n : Half) : EncodeLegal.Statement (.encap p s d q n) := ⟨rfl, rfl⟩

theorem EncodeLegal.decap (n : Half) : EncodeLegal.Statement (.decap n) := ⟨rfl, rfl⟩

theorem EncodeLegal.prepAdv (t : Tick) : EncodeLegal.Statement (.prepAdv t) := ⟨rfl, rfl⟩

theorem EncodeLegal.sendAdv : EncodeLegal.Statement .sendAdv := ⟨rfl, rfl⟩

theorem EncodeLegal.processRx (n : Half) (t : Tick) : EncodeLegal.Statement (.processRx n t) := ⟨rfl, rfl⟩

theorem EncodeLegal.tsWrite (o : Half) (t : Tick) : EncodeLegal.Statement (.tsWrite o t) := ⟨rfl, rfl⟩

theorem EncodeLegal.tsRead (o : Half) : EncodeLegal.Statement (.tsRead o) := ⟨rfl, rfl⟩

/-- The decoder reads the encoder's descriptor back (R71 to R73). -/
def RoundTrip.Statement (i : Instr) : Prop :=
  decode (encode i) = .ok i

/-- An operand of the encoder's descriptor, read back. -/
theorem operand_encoded {w k n : Nat} (v : BitVec w) {d : List Byte} (pre post : List Byte) (hw : 256 ^ n = 2 ^ w)
    (hd : d = pre ++ (leBytes n v.toNat ++ post)) (hk : pre.length = k) : operand w d k n = v := by
  rw [hd, operand_leBytes pre post hk (by rw [hw]; exact v.isLt), BitVec.ofNat_toNat, BitVec.setWidth_eq]

theorem RoundTrip.init (p a : Half) : RoundTrip.Statement (.init p a) := by
  have h1 := operand_encoded (k := 1) (n := 2) p [0x01] (leBytes 2 a.toNat) rfl rfl rfl
  have h2 := operand_encoded (k := 3) (n := 2) a ([0x01] ++ leBytes 2 p.toNat) [] rfl rfl rfl
  exact congrArg Except.ok (congrArg₂ Instr.init h1 h2)

theorem RoundTrip.encap (p s d : Half) (q : Byte) (n : Half) : RoundTrip.Statement (.encap p s d q n) := by
  have h1 := operand_encoded (k := 1) (n := 2) p [0x02]
    (leBytes 2 s.toNat ++ leBytes 2 d.toNat ++ leBytes 1 q.toNat ++ leBytes 2 n.toNat) rfl rfl rfl
  have h2 := operand_encoded (k := 3) (n := 2) s ([0x02] ++ leBytes 2 p.toNat)
    (leBytes 2 d.toNat ++ leBytes 1 q.toNat ++ leBytes 2 n.toNat) rfl rfl rfl
  have h3 := operand_encoded (k := 5) (n := 2) d ([0x02] ++ leBytes 2 p.toNat ++ leBytes 2 s.toNat)
    (leBytes 1 q.toNat ++ leBytes 2 n.toNat) rfl rfl rfl
  have h4 := operand_encoded (k := 7) (n := 1) q ([0x02] ++ leBytes 2 p.toNat ++ leBytes 2 s.toNat ++ leBytes 2 d.toNat)
    (leBytes 2 n.toNat) rfl rfl rfl
  have h5 := operand_encoded (k := 8) (n := 2) n
    ([0x02] ++ leBytes 2 p.toNat ++ leBytes 2 s.toNat ++ leBytes 2 d.toNat ++ leBytes 1 q.toNat) [] rfl rfl rfl
  simp only [List.cons_append, List.nil_append, List.append_assoc, List.append_nil] at h1 h2 h3 h4 h5
  simp only [RoundTrip.Statement, encode, List.append_assoc]
  show Except.ok (Instr.encap _ _ _ _ _) = _
  rw [h1, h2, h3, h4, h5]

theorem RoundTrip.decap (n : Half) : RoundTrip.Statement (.decap n) :=
  congrArg (fun x => Except.ok (Instr.decap x)) (operand_encoded n [0x03] [] rfl rfl rfl)

theorem RoundTrip.prepAdv (t : Tick) : RoundTrip.Statement (.prepAdv t) :=
  congrArg (fun x => Except.ok (Instr.prepAdv x)) (operand_encoded t [0x04] [] rfl rfl rfl)

theorem RoundTrip.sendAdv : RoundTrip.Statement .sendAdv := rfl

theorem RoundTrip.processRx (n : Half) (t : Tick) : RoundTrip.Statement (.processRx n t) := by
  have h1 := operand_encoded (k := 1) (n := 2) n [0x06] (leBytes 8 t.toNat) rfl rfl rfl
  have h2 := operand_encoded (k := 3) (n := 8) t ([0x06] ++ leBytes 2 n.toNat) [] rfl rfl rfl
  exact congrArg Except.ok (congrArg₂ Instr.processRx h1 h2)

theorem RoundTrip.tsWrite (o : Half) (t : Tick) : RoundTrip.Statement (.tsWrite o t) := by
  have h1 := operand_encoded (k := 1) (n := 2) o [0x07] (leBytes 8 t.toNat) rfl rfl rfl
  have h2 := operand_encoded (k := 3) (n := 8) t ([0x07] ++ leBytes 2 o.toNat) [] rfl rfl rfl
  exact congrArg Except.ok (congrArg₂ Instr.tsWrite h1 h2)

theorem RoundTrip.tsRead (o : Half) : RoundTrip.Statement (.tsRead o) :=
  congrArg (fun x => Except.ok (Instr.tsRead x)) (operand_encoded o [0x08] [] rfl rfl rfl)

end Sys2Proof.Laws
end

