-- ==== Sys2Proof/Laws/State.lean ====
section
/-! SUPPORT. One law per field and update of the state, so that no proof unfolds a record update. -/

namespace Sys2Proof.Machine

/-! ### `complete` -/

@[simp] theorem complete_hr (r : Result) (s : State) : (complete r s).hr = s.hr := rfl
@[simp] theorem complete_res (r : Result) (s : State) : (complete r s).res = r := rfl
@[simp] theorem complete_rbuf (r : Result) (s : State) : (complete r s).rbuf = s.rbuf := rfl
@[simp] theorem complete_txLog (r : Result) (s : State) : (complete r s).txLog = s.txLog := rfl
@[simp] theorem complete_clkLog (r : Result) (s : State) : (complete r s).clkLog = s.clkLog := rfl
@[simp] theorem complete_params (r : Result) (s : State) : (complete r s).params = s.params := rfl
@[simp] theorem complete_mem (r : Result) (s : State) : (complete r s).mem = s.mem := rfl
@[simp] theorem complete_att (r : Result) (s : State) : (complete r s).att = s.att := rfl
@[simp] theorem complete_inbox (r : Result) (s : State) : (complete r s).inbox = s.inbox := rfl
@[simp] theorem complete_clockIn (r : Result) (s : State) : (complete r s).clockIn = s.clockIn := rfl
@[simp] theorem complete_drawSource (r : Result) (s : State) : (complete r s).drawSource = s.drawSource := rfl
@[simp] theorem complete_drawCount (r : Result) (s : State) : (complete r s).drawCount = s.drawCount := rfl

/-! ### `transmit` -/

@[simp] theorem transmit_hr (t : Tick) (b : List Byte) (s : State) : (transmit t b s).hr = s.hr := rfl
@[simp] theorem transmit_res (t : Tick) (b : List Byte) (s : State) : (transmit t b s).res = s.res := rfl
@[simp] theorem transmit_rbuf (t : Tick) (b : List Byte) (s : State) : (transmit t b s).rbuf = s.rbuf := rfl
@[simp] theorem transmit_txLog (t : Tick) (b : List Byte) (s : State) : (transmit t b s).txLog = s.txLog ++ [{ instant := t, bytes := b, len := BitVec.ofNat 16 b.length }] := rfl
@[simp] theorem transmit_clkLog (t : Tick) (b : List Byte) (s : State) : (transmit t b s).clkLog = s.clkLog := rfl
@[simp] theorem transmit_params (t : Tick) (b : List Byte) (s : State) : (transmit t b s).params = s.params := rfl
@[simp] theorem transmit_mem (t : Tick) (b : List Byte) (s : State) : (transmit t b s).mem = s.mem := rfl
@[simp] theorem transmit_att (t : Tick) (b : List Byte) (s : State) : (transmit t b s).att = s.att := rfl
@[simp] theorem transmit_inbox (t : Tick) (b : List Byte) (s : State) : (transmit t b s).inbox = s.inbox := rfl
@[simp] theorem transmit_clockIn (t : Tick) (b : List Byte) (s : State) : (transmit t b s).clockIn = s.clockIn := rfl
@[simp] theorem transmit_drawSource (t : Tick) (b : List Byte) (s : State) : (transmit t b s).drawSource = s.drawSource := rfl
@[simp] theorem transmit_drawCount (t : Tick) (b : List Byte) (s : State) : (transmit t b s).drawCount = s.drawCount := rfl

/-! ### `clockRead` -/

@[simp] theorem clockRead_fst (s : State) : (clockRead s).1 = nextClock s := rfl
@[simp] theorem clockRead_hr (s : State) : (clockRead s).2.hr = s.hr := rfl
@[simp] theorem clockRead_res (s : State) : (clockRead s).2.res = s.res := rfl
@[simp] theorem clockRead_rbuf (s : State) : (clockRead s).2.rbuf = s.rbuf := rfl
@[simp] theorem clockRead_txLog (s : State) : (clockRead s).2.txLog = s.txLog := rfl
@[simp] theorem clockRead_clkLog (s : State) : (clockRead s).2.clkLog = s.clkLog ++ [nextClock s] := rfl
@[simp] theorem clockRead_params (s : State) : (clockRead s).2.params = s.params := rfl
@[simp] theorem clockRead_mem (s : State) : (clockRead s).2.mem = s.mem := rfl
@[simp] theorem clockRead_att (s : State) : (clockRead s).2.att = s.att := rfl
@[simp] theorem clockRead_inbox (s : State) : (clockRead s).2.inbox = s.inbox := rfl
@[simp] theorem clockRead_clockIn (s : State) : (clockRead s).2.clockIn = s.clockIn.tail := rfl
@[simp] theorem clockRead_drawSource (s : State) : (clockRead s).2.drawSource = s.drawSource := rfl
@[simp] theorem clockRead_drawCount (s : State) : (clockRead s).2.drawCount = if s.clockIn.isEmpty then s.drawCount + 1 else s.drawCount := rfl

/-! ### `accept` -/

@[simp] theorem accept_hr (c : Command) (q : List Delivery) (s : State) : (accept c q s).hr = s.hr := rfl
@[simp] theorem accept_res (c : Command) (q : List Delivery) (s : State) : (accept c q s).res = s.res := rfl
@[simp] theorem accept_rbuf (c : Command) (q : List Delivery) (s : State) : (accept c q s).rbuf = s.rbuf := rfl
@[simp] theorem accept_txLog (c : Command) (q : List Delivery) (s : State) : (accept c q s).txLog = s.txLog := rfl
@[simp] theorem accept_clkLog (c : Command) (q : List Delivery) (s : State) : (accept c q s).clkLog = s.clkLog := rfl
@[simp] theorem accept_params (c : Command) (q : List Delivery) (s : State) : (accept c q s).params = s.params := rfl
@[simp] theorem accept_mem (c : Command) (q : List Delivery) (s : State) : (accept c q s).mem = hostStores s.mem c.stores := rfl
@[simp] theorem accept_att (c : Command) (q : List Delivery) (s : State) : (accept c q s).att = c.attach := rfl
@[simp] theorem accept_inbox (c : Command) (q : List Delivery) (s : State) : (accept c q s).inbox = q := rfl
@[simp] theorem accept_clockIn (c : Command) (q : List Delivery) (s : State) : (accept c q s).clockIn = s.clockIn := rfl
@[simp] theorem accept_drawSource (c : Command) (q : List Delivery) (s : State) : (accept c q s).drawSource = s.drawSource := rfl
@[simp] theorem accept_drawCount (c : Command) (q : List Delivery) (s : State) : (accept c q s).drawCount = s.drawCount := rfl

/-! ### `release` -/

@[simp] theorem release_hr (s : State) : (release s).hr = s.hr := rfl
@[simp] theorem release_res (s : State) : (release s).res = s.res := rfl
@[simp] theorem release_rbuf (s : State) : (release s).rbuf = s.rbuf := rfl
@[simp] theorem release_txLog (s : State) : (release s).txLog = s.txLog := rfl
@[simp] theorem release_clkLog (s : State) : (release s).clkLog = s.clkLog := rfl
@[simp] theorem release_params (s : State) : (release s).params = s.params := rfl
@[simp] theorem release_mem (s : State) : (release s).mem = s.mem := rfl
@[simp] theorem release_att (s : State) : (release s).att = none := rfl
@[simp] theorem release_inbox (s : State) : (release s).inbox = s.inbox := rfl
@[simp] theorem release_clockIn (s : State) : (release s).clockIn = s.clockIn := rfl
@[simp] theorem release_drawSource (s : State) : (release s).drawSource = s.drawSource := rfl
@[simp] theorem release_drawCount (s : State) : (release s).drawCount = s.drawCount := rfl

/-! ### The result records -/

@[simp] theorem okResult_status : okResult.status = some 0x00 := rfl
@[simp] theorem okResult_cause : okResult.cause = some 0x00 := rfl
@[simp] theorem okResult_frameLen : okResult.frameLen = none := rfl
@[simp] theorem okResult_panId : okResult.panId = none := rfl
@[simp] theorem okResult_src : okResult.src = none := rfl
@[simp] theorem okResult_dst : okResult.dst = none := rfl
@[simp] theorem okResult_seq : okResult.seq = none := rfl
@[simp] theorem okResult_payloadLen : okResult.payloadLen = none := rfl
@[simp] theorem okResult_ts : okResult.ts = none := rfl
@[simp] theorem errorResult_status (st : Status) (c : Cause) :
    (errorResult st c).status = some (statusCode st) := rfl
@[simp] theorem errorResult_cause (st : Status) (c : Cause) :
    (errorResult st c).cause = some (causeCode c) := rfl
@[simp] theorem errorResult_frameLen (st : Status) (c : Cause) : (errorResult st c).frameLen = none := rfl
@[simp] theorem errorResult_panId (st : Status) (c : Cause) : (errorResult st c).panId = none := rfl
@[simp] theorem errorResult_src (st : Status) (c : Cause) : (errorResult st c).src = none := rfl
@[simp] theorem errorResult_dst (st : Status) (c : Cause) : (errorResult st c).dst = none := rfl
@[simp] theorem errorResult_seq (st : Status) (c : Cause) : (errorResult st c).seq = none := rfl
@[simp] theorem errorResult_payloadLen (st : Status) (c : Cause) : (errorResult st c).payloadLen = none := rfl
@[simp] theorem errorResult_ts (st : Status) (c : Cause) : (errorResult st c).ts = none := rfl

/-- No error status is the OK status (R161). -/
@[simp] theorem statusCode_ne_ok (st : Status) : ¬ statusCode st = 0#8 := by cases st <;> decide

/-! ### Outcomes -/

@[simp] theorem commit_ok (s : State) : commit (.ok s) = .next s := rfl
@[simp] theorem returned_next (s : State) : returned (.next s) = .next (release s) := rfl

end Sys2Proof.Machine
end

