-- ==== Sys2Proof/Laws/System.lean ====
section
/-! SUPPORT. Laws of the operations on several blocks: what creation puts at each place, and what a delivery leaves. -/

namespace Sys2Proof.Machine

/-! ### `System.create` -/

@[simp] theorem System.length_create (ps : List Params) : (System.create ps).length = ps.length := by
  simp [System.create]

@[simp] theorem System.getElem?_create (ps : List Params) (k : Nat) :
    (System.create ps)[k]? = ps[k]?.map fun p => { State.create p with drawSource := k } := by
  simp [System.create]

/-! ### `State.deliver` -/

@[simp] theorem deliver_hr (e : TxEvent) (b : Nat) (rx : Tick) (s : State) : (s.deliver e b rx).hr = s.hr := rfl
@[simp] theorem deliver_res (e : TxEvent) (b : Nat) (rx : Tick) (s : State) : (s.deliver e b rx).res = s.res := rfl
@[simp] theorem deliver_rbuf (e : TxEvent) (b : Nat) (rx : Tick) (s : State) : (s.deliver e b rx).rbuf = s.rbuf := rfl
@[simp] theorem deliver_txLog (e : TxEvent) (b : Nat) (rx : Tick) (s : State) : (s.deliver e b rx).txLog = s.txLog := rfl
@[simp] theorem deliver_clkLog (e : TxEvent) (b : Nat) (rx : Tick) (s : State) : (s.deliver e b rx).clkLog = s.clkLog := rfl
@[simp] theorem deliver_params (e : TxEvent) (b : Nat) (rx : Tick) (s : State) : (s.deliver e b rx).params = s.params := rfl
@[simp] theorem deliver_mem (e : TxEvent) (b : Nat) (rx : Tick) (s : State) : (s.deliver e b rx).mem = s.mem := rfl
@[simp] theorem deliver_att (e : TxEvent) (b : Nat) (rx : Tick) (s : State) : (s.deliver e b rx).att = s.att := rfl
@[simp] theorem deliver_inbox (e : TxEvent) (b : Nat) (rx : Tick) (s : State) :
    (s.deliver e b rx).inbox = s.inbox ++ [.command (receiveCommand e b rx)] := rfl
@[simp] theorem deliver_clockIn (e : TxEvent) (b : Nat) (rx : Tick) (s : State) : (s.deliver e b rx).clockIn = s.clockIn := rfl
@[simp] theorem deliver_drawSource (e : TxEvent) (b : Nat) (rx : Tick) (s : State) : (s.deliver e b rx).drawSource = s.drawSource := rfl
@[simp] theorem deliver_drawCount (e : TxEvent) (b : Nat) (rx : Tick) (s : State) : (s.deliver e b rx).drawCount = s.drawCount := rfl

/-! ### `System.stepAt` and `System.carry` -/

/-- All that a step of block `k` can do: nothing where there is no block `k`, else that block's own step at its place. -/
theorem System.stepAt_cases {k : Nat} {sys sys' : System} (h : System.stepAt k sys = .next sys') :
    (sys[k]? = none ∧ sys' = sys) ∨ ∃ s t, sys[k]? = some s ∧ step s = .next t ∧ sys' = sys.set k t := by
  unfold System.stepAt at h
  split at h
  · next hk => exact .inl ⟨hk, by simpa using h.symm⟩
  · next s hk =>
    split at h
    · next t ht => exact .inr ⟨s, t, hk, ht, by simpa using h.symm⟩
    · simp at h
    · simp at h

/-- All that a delivery can do: nothing, or one more command pending in block `j`. -/
theorem System.carry_cases (i n j buffer : Nat) (rx : Tick) (sys : System) :
    System.carry i n j buffer rx sys = sys ∨
      ∃ s e t, sys[i]? = some s ∧ s.txLog[n]? = some e ∧ sys[j]? = some t ∧
        System.carry i n j buffer rx sys = sys.set j (t.deliver e buffer rx) := by
  unfold System.carry
  split
  · next e t he ht =>
    obtain ⟨s, hs, hn⟩ := Option.bind_eq_some_iff.mp he
    exact .inr ⟨s, e, t, hs, hn, ht, rfl⟩
  · exact .inl rfl

end Sys2Proof.Machine
end

