-- ==== Sys2Proof/Tests/Slice0.lean ====
section
/-! SUPPORT. Tests. Every expected result is a vector of 95_test_vectors.md (its name is in the comment) or is worked
out by hand from the rule named. The second half has, for every obligation with hypotheses, a concrete state and
operands that meet them all. -/

namespace Sys2Proof.Machine.Tests

/-! ### Helpers -/

/-- A block with parameters `p` and handler `h`, executing a command with a buffer of length `cap` that holds `bytes`. -/
def block (p : Params) (h : Handler) (cap : Half) (bytes : List Byte) : State :=
  { State.create p with
    hr := h, mem := Memory.writeBytes [] 0 bytes, att := some { buffer := 0, cap := cap } }

/-- The parameters of a vector that names none (section 0 of 95_test_vectors.md). -/
def reference : Params := Params.reference

/-- The handler before INIT. -/
def uninit : Handler := State.reset.hr

/-- The advertising node of section 2.5: `INIT pan=0xabcd, addr=0xcafe`. -/
def advertiser : Handler := { panId := 0xabcd, addr := 0xcafe, seq := 0, initDone := true }

/-- The responding node of section 2.5: `INIT pan=0xabcd, addr=0x0042`. -/
def responder : Handler := { panId := 0xabcd, addr := 0x0042, seq := 0, initDone := true }

/-- `ADV600` of section 0. -/
def adv600 : List Byte := [0x41, 0x88, 0x00, 0xcd, 0xab, 0xff, 0xff, 0xfe, 0xca, 0x00, 0x00, 0x00, 0x02, 0x58, 0x00, 0x00]

/-- `ADV1600` of section 0. -/
def adv1600 : List Byte := [0x41, 0x88, 0x00, 0xcd, 0xab, 0xff, 0xff, 0xfe, 0xca, 0x00, 0x00, 0x00, 0x06, 0x40, 0x00, 0x00]

/-- `REPLY_S8` of section 0. -/
def replyS8 : List Byte :=
  [0x41, 0x88, 0x01, 0xcd, 0xab, 0xfe, 0xca, 0x42, 0x00, 0x00, 0x00, 0x00, 0x02, 0x58] ++
    [0x00, 0x00, 0x00, 0x05, 0x78, 0x00, 0x00, 0x00, 0x09, 0x60, 0x00, 0x00]

/-- The outcome is a next state for which the test `p` holds. -/
def nextWith (p : State → Bool) (o : Host.Outcome State Fault Refusal) : Bool :=
  match o with
  | .next t => p t
  | .fault _ => false
  | .refused _ => false

/-- The record of an error: status `st`, cause `c`, and nothing else. -/
def failed (st c : Byte) : Result :=
  { status := some st, cause := some c, frameLen := none, panId := none, src := none, dst := none, seq := none,
    payloadLen := none, ts := none }

/-- The record of a command that produces no field. -/
def done : Result := failed 0x00 0x00

/-- The host's one pending command. -/
def pending (c : Command) (s : State) : State := { s with att := none, inbox := [.command c] }

/-! ### Well-formedness: an ill-formed descriptor for each check (R74) -/

/-- I1, I2, I3: opcodes 0x00, 0x09 and 0xff are not legal. -/
theorem test_opcodeLegal_refuses :
    opcodeLegal [0x00] = false ∧ opcodeLegal [0x09] = false ∧ opcodeLegal [0xff] = false := by decide

/-- I5, I6, I7, I8: a descriptor one byte too long, or too short, for its opcode. -/
theorem test_lengthLegal_refuses :
    lengthLegal [0x05, 0x00] = false ∧ lengthLegal [0x04] = false ∧ lengthLegal [0x01, 0xcd, 0xab, 0xfe] = false ∧
    lengthLegal [0x03, 0x0e] = false := by decide

/-- I9: SEND_ADV without a buffer. -/
theorem test_bufferLegal_refuses : bufferLegal [0x05] false = false ∧ bufferLegal [0x05] true = true := by decide

/-- The checks together: ill-formed descriptors are no legal command, and I10 is one with or without a buffer. -/
theorem test_commandLegal :
    descriptorLegal [0x09] = false ∧ descriptorLegal [0x05, 0x00] = false ∧ commandLegal [0x05] false = false ∧
    commandLegal [0x01, 0xcd, 0xab, 0xfe, 0xca] false = true ∧
    commandLegal [0x01, 0xcd, 0xab, 0xfe, 0xca] true = true := by decide

/-- No two rows of the opcode map have the same opcode (R72). -/
theorem test_opcodeMap_unambiguous : opcodeMap.Pairwise (fun r q => r.opcode ≠ q.opcode) := by decide

/-! ### Decoding: one word of each command, written out from R72 -/

/-- H1. -/
theorem test_decode_init : decode [0x01, 0xcd, 0xab, 0xfe, 0xca] = .ok (.init 0xabcd 0xcafe) := by decide

/-- E3: five operands, no two alike. -/
theorem test_decode_encap :
    decode [0x02, 0x34, 0x12, 0x78, 0x56, 0xbc, 0x9a, 0x7f, 0x0c, 0x00] =
      .ok (.encap 0x1234 0x5678 0x9abc 0x7f 12) := by decide

/-- R72: `frame_len` 0x0201 has its low byte first. -/
theorem test_decode_decap : decode [0x03, 0x01, 0x02] = .ok (.decap 0x0201) := by decide

/-- H5. -/
theorem test_decode_prepAdv :
    decode [0x04, 0xfe, 0xca, 0xca, 0xde, 0x0f, 0xff, 0xff, 0xff] = .ok (.prepAdv 0xffffff0fdecacafe) := by decide

/-- H6. -/
theorem test_decode_sendAdv : decode [0x05] = .ok .sendAdv := by decide

/-- H29: length 16, receive time `2^40 - 500`. -/
theorem test_decode_processRx :
    decode [0x06, 0x10, 0x00, 0x0c, 0xfe, 0xff, 0xff, 0xff, 0x00, 0x00, 0x00] =
      .ok (.processRx 16 0xfffffffe0c) := by decide

/-- T3: all eight bytes of the timestamp differ. -/
theorem test_decode_tsWrite :
    decode [0x07, 0x00, 0x00, 0xef, 0xcd, 0xab, 0x89, 0x67, 0x45, 0x23, 0x01] =
      .ok (.tsWrite 0 0x0123456789abcdef) := by decide

/-- T7. -/
theorem test_decode_tsRead : decode [0x08, 0x01, 0x00] = .ok (.tsRead 1) := by decide

/-- I1, I2, I5: the decoder's errors, the opcode before the length (R167). -/
theorem test_decode_errors :
    decode [0x00] = .error .badOpcode ∧ decode [0x09] = .error .badOpcode ∧ decode [0x09, 0x00] = .error .badOpcode ∧
    decode [0x05, 0x00] = .error .badLength := by decide

/-- The table's numbering: bits 15..8 of the word are descriptor byte 1; bytes the word does not give are zeros. -/
theorem test_decodeTableWord :
    decodeTableWord 40 0xcafeabcd01 = some (.init 0xabcd 0xcafe) ∧ decodeTableWord 8 0x08 = some (.tsRead 0) ∧
    decodeTableWord 8 0x09 = none := by decide

/-! ### The assembler (R75) -/

/-- P1, line 2. -/
theorem test_assemble_init :
    assemble "INIT pan=0xabcd, addr=0xcafe".toList =
      some { instr := .init 0xabcd 0xcafe, buffer := none } := by decide

/-- P3, line 2, and P2, line 2: a buffer's name, decimal and hexadecimal numbers. -/
theorem test_assemble_buffer_commands :
    assemble "ENCAP C, pan=0xfeeb, src=0x0001, dst=0x0002, seq=0x2a, len=5".toList =
      some { instr := .encap 0xfeeb 0x0001 0x0002 0x2a 5, buffer := some ['C'] } ∧
    assemble "PROCESS_RX R, len=16, rx=1400".toList =
      some { instr := .processRx 16 1400, buffer := some ['R'] } ∧
    assemble "SEND_ADV A".toList = some { instr := .sendAdv, buffer := some ['A'] } := by decide

/-- R72, R75: a line without its buffer, with a number too large for `<u16>`, or with an unknown mnemonic. -/
theorem test_assemble_refuses :
    assemble "SEND_ADV".toList = none ∧ assemble "DECAP C, len=65536".toList = none ∧
    assemble "RESET A".toList = none := by decide

/-! ### ENCAP and DECAP (section 2.2) -/

/-- E3: the overlapping move, the header, the trailer, and two bytes past the frame unchanged. -/
theorem test_encap_E3 :
    nextWith (fun t => Memory.readBytes t.mem 0 25 == [0x41, 0x88, 0x7f, 0x34, 0x12, 0xbc, 0x9a, 0x78, 0x56, 0x10, 0x11,
        0x12, 0x13, 0x14, 0x15, 0x16, 0x17, 0x18, 0x19, 0x1a, 0x1b, 0x00, 0x00, 0xee, 0xee] &&
        t.res == { done with frameLen := some 23 })
      (exec (.encap 0x1234 0x5678 0x9abc 0x7f 12) (block reference uninit 25
        ([0x10, 0x11, 0x12, 0x13, 0x14, 0x15, 0x16, 0x17, 0x18, 0x19, 0x1a, 0x1b] ++ List.replicate 13 0xee))) = true := by
  decide

/-- E4 (14 > 13) and E5 (65546 > 65535, the sum does not wrap). -/
theorem test_encap_overflow :
    nextWith (fun t => t.res == failed 0x02 0x03 && Memory.readBytes t.mem 0 13 == List.replicate 13 0x55)
      (exec (.encap 0x1234 0x5678 0x9abc 0x7f 3) (block reference uninit 13 (List.replicate 13 0x55))) = true ∧
    nextWith (fun t => t.res == failed 0x02 0x03)
      (exec (.encap 0 0 0 0 65535) (block reference uninit 65535 [])) = true := by
  decide

/-- D1: the fields of the output of E1. -/
theorem test_decap_D1 :
    nextWith (fun t => t.res == { done with
        panId := some 0xfeeb, src := some 0x0001, dst := some 0x0002, seq := some 0xff, payloadLen := some 3 })
      (exec (.decap 14) (block reference uninit 14
        [0x41, 0x88, 0xff, 0xeb, 0xfe, 0x02, 0x00, 0x01, 0x00, 0xde, 0xad, 0xbe, 0x00, 0x00])) = true := by
  decide

/-- D5 (length before frame control), D7 (bytes swapped) and D8 (short before frame control). -/
theorem test_decap_errors :
    nextWith (fun t => t.res == failed 0x02 0x04) (exec (.decap 16) (block reference uninit 15 [])) = true ∧
    nextWith (fun t => t.res == failed 0x01 0x02) (exec (.decap 11) (block reference uninit 11 [0x88, 0x41])) = true ∧
    nextWith (fun t => t.res == failed 0x01 0x01) (exec (.decap 5) (block reference uninit 5 [])) = true := by
  decide

/-- D9 before its draws (which no test can evaluate): the payload of the output of E3 moves down to 0, and the bytes past
the frame stay. -/
theorem test_decapsulate_D9 :
    (match decapsulate { base := 0, cap := 25 } (Memory.writeBytes [] 0 [0x41, 0x88, 0x7f, 0x34, 0x12, 0xbc, 0x9a, 0x78,
        0x56, 0x10, 0x11, 0x12, 0x13, 0x14, 0x15, 0x16, 0x17, 0x18, 0x19, 0x1a, 0x1b, 0x00, 0x00, 0xee, 0xee]) 23 with
      | .ok (f, m) =>
        f == { seq := 0x7f, panId := 0x1234, dst := 0x9abc, src := 0x5678, payloadLen := 12 } &&
        Memory.readBytes m 0 12 == [0x10, 0x11, 0x12, 0x13, 0x14, 0x15, 0x16, 0x17, 0x18, 0x19, 0x1a, 0x1b] &&
        Memory.readBytes m 23 2 == [0xee, 0xee]
      | .error _ => false) = true := by
  decide

/-! ### TS_WRITE, TS_READ and instants (sections 2.3 and 2.4) -/

/-- T3 (bits 63:40 dropped) and T5 (`o + 5 = cap`). -/
theorem test_tsWrite :
    nextWith (fun t => Memory.readBytes t.mem 0 5 == [0x67, 0x89, 0xab, 0xcd, 0xef] && t.res == done)
      (exec (.tsWrite 0 0x0123456789abcdef) (block reference uninit 5 [])) = true ∧
    nextWith (fun t => Memory.readBytes t.mem 0 8 == [0xee, 0xee, 0xee, 0x01, 0x02, 0x03, 0x04, 0x05])
      (exec (.tsWrite 3 0x0102030405) (block reference uninit 8 (List.replicate 8 0xee))) = true := by
  decide

/-- T6 (9 > 8) and T9 (65540 > 65535, no wrap). -/
theorem test_tsWrite_overflow :
    nextWith (fun t => t.res == failed 0x02 0x05 && Memory.readBytes t.mem 0 8 == List.replicate 8 0xee)
      (exec (.tsWrite 4 0x0102030405) (block reference uninit 8 (List.replicate 8 0xee))) = true ∧
    nextWith (fun t => t.res == failed 0x02 0x05)
      (exec (.tsWrite 0xffff 1) (block reference uninit 65535 [])) = true := by
  decide

/-- T2 and T7. -/
theorem test_tsRead :
    nextWith (fun t => t.res == { done with ts := some 0xfdecacafe })
      (exec (.tsRead 0) (block reference uninit 5 [0x0f, 0xde, 0xca, 0xca, 0xfe])) = true ∧
    nextWith (fun t => t.res == { done with ts := some 0xffffffffff })
      (exec (.tsRead 1) (block reference uninit 6 [0x00, 0xff, 0xff, 0xff, 0xff, 0xff])) = true := by
  decide

/-- T10. -/
theorem test_tsRead_overflow :
    nextWith (fun t => t.res == failed 0x02 0x05) (exec (.tsRead 0) (block reference uninit 4 [])) = true := by
  decide

/-- A3, A4, A5, A6 and A7. -/
theorem test_tsAdd :
    tsAdd .wrap40 0xfffffffc17 1000 = 0xffffffffff ∧
    tsAdd .wrap40 0xfffffffc18 1000 = 0 ∧ tsAdd .wrap64 0xfffffffc18 1000 = 0x10000000000 ∧
    tsAdd .wrap40 0xfffffffe0c 1000 = 500 ∧ tsAdd .wrap64 0xfffffffe0c 1000 = 0x100000001f4 ∧
    tsAdd .wrap40 0x0123000000000258 1000 = 0x640 ∧ tsAdd .wrap64 0x0123000000000258 1000 = 0x0123000000000640 ∧
    tsAdd .wrap40 0xffffffffffffffff 1000 = 999 ∧ tsAdd .wrap64 0xffffffffffffffff 1000 = 999 := by
  decide

/-! ### INIT, PREP_ADV, SEND_ADV and PROCESS_RX (section 2.5) -/

/-- H32: a second INIT replaces the identity and zeroes `SEQ`. -/
theorem test_init_H32 :
    nextWith (fun t => t.hr == { panId := 0x1111, addr := 0x2222, seq := 0, initDone := true } && t.res == done)
      (exec (.init 0x1111 0x2222) (block reference { advertiser with seq := 7 } 0 [])) = true := by
  decide

/-- H4: the advertisement, and the bytes past it unchanged. -/
theorem test_prepAdv_H4 :
    nextWith (fun t => Memory.readBytes t.mem 0 20 == adv600 ++ [0x33, 0x33, 0x33, 0x33] &&
        t.res == { done with frameLen := some 16 } && t.hr == advertiser && t.txLog == [] && t.clkLog == [])
      (exec (.prepAdv 600) (block reference advertiser 20 (List.replicate 20 0x33))) = true := by
  decide

/-- H2 (not initialised before the buffer's size) and H3. -/
theorem test_prepAdv_errors :
    nextWith (fun t => t.res == failed 0x03 0x06) (exec (.prepAdv 600) (block reference uninit 0 [])) = true ∧
    nextWith (fun t => t.res == failed 0x02 0x03) (exec (.prepAdv 600) (block reference advertiser 15 [])) = true := by
  decide

/-- H6: the buffer, both logs and the record. -/
theorem test_sendAdv_H6 :
    nextWith (fun t => Memory.readBytes t.mem 0 16 == adv1600 && t.clkLog == [600] && t.res == done &&
        t.txLog == [{ instant := 1600, bytes := adv1600, len := 16 }] && t.clockIn == [])
      (exec .sendAdv { block reference advertiser 16 [] with clockIn := [600] }) = true := by
  decide

/-- H11 and H13: `SEQ` wraps after the frame that carries 0xff; under `WRAP64` the instant keeps bits the payload drops. -/
theorem test_sendAdv_modes :
    nextWith (fun t => t.hr.seq == 0 && t.txLog == [{ instant := 8000, len := 16, bytes := [0x41, 0x88, 0xff, 0xcd, 0xab,
        0xff, 0xff, 0xfe, 0xca, 0x00, 0x00, 0x00, 0x1f, 0x40, 0x00, 0x00] }])
      (exec .sendAdv { block { reference with seqAdvance := .onSendAdv } { advertiser with seq := 0xff } 16 [] with
        clockIn := [7000] }) = true ∧
    nextWith (fun t => t.txLog == [{ instant := 0x100000001f4, len := 16, bytes := [0x41, 0x88, 0x00, 0xcd, 0xab,
        0xff, 0xff, 0xfe, 0xca, 0x00, 0x00, 0x00, 0x01, 0xf4, 0x00, 0x00] }])
      (exec .sendAdv { block { reference with tsArith := .wrap64 } advertiser 16 [] with
        clockIn := [0xfffffffe0c] }) = true := by
  decide

/-- H15: the reply, in `TXLOG` and in `RBUF`. -/
theorem test_processRx_H15 :
    nextWith (fun t => t.res == done && t.txLog == [{ instant := 2400, bytes := replyS8, len := 26 }] &&
        t.clkLog == [] && Memory.readBytes t.rbuf 0 26 == replyS8)
      (exec (.processRx 16 1400) (block reference responder 16 adv600)) = true := by
  decide

/-- H17 (own address), H19 (PAN), H20 (6-byte payload) drop silently; H22 and H25 raise. -/
theorem test_processRx_drops_and_errors :
    nextWith (fun t => t.res == done && t.txLog == [] && t.rbuf == [])
      (exec (.processRx 16 1400) (block reference responder 16 ((adv600.set 5 0x42).set 6 0x00))) = true ∧
    nextWith (fun t => t.res == done && t.txLog == [])
      (exec (.processRx 16 1400) (block reference { responder with panId := 0xcafe } 16
        ((adv600.set 3 0xbc).set 4 0xba))) = true ∧
    nextWith (fun t => t.res == done && t.txLog == [])
      (exec (.processRx 17 1400) (block reference responder 17 (adv600 ++ [0x00]))) = true ∧
    nextWith (fun t => t.res == failed 0x01 0x01 && Memory.readBytes t.mem 0 10 == adv600.take 10)
      (exec (.processRx 10 1400) (block reference responder 10 (adv600.take 10))) = true ∧
    nextWith (fun t => t.res == failed 0x03 0x06)
      (exec (.processRx 16 1400) (block reference uninit 16 adv600)) = true := by
  decide

/-- H15's buffer: every byte is a draw of its own (R143), so a test reads it by the law and not by evaluation. -/
theorem test_processRx_buffer_is_drawn (s : State) (i : Nat) (h : i < 20) :
    Memory.read (Memory.writeBytes s.mem 0 (freeBytes s.drawSource s.drawCount 20)) (0 + i) =
      Config.freeByte s.drawSource (s.drawCount + i) :=
  read_freeBytes h

/-! ### The step, reset and result reads (sections 2.1 and 3) -/

/-- I4, I8, I9: the opcode before the length before the buffer. -/
theorem test_step_illegal :
    nextWith (fun t => t.res == failed 0x04 0x07)
      (step (pending { stores := [], desc := [0x09], attach := none } State.reset)) = true ∧
    nextWith (fun t => t.res == failed 0x04 0x08)
      (step (pending { stores := [], desc := [0x03, 0x0e], attach := none } State.reset)) = true ∧
    nextWith (fun t => t.res == failed 0x04 0x09)
      (step (pending { stores := [], desc := [0x05], attach := none } State.reset)) = true := by
  decide

/-- I10: a buffer attached to INIT is ignored and unchanged, and is released (R53). -/
theorem test_step_I10 :
    nextWith (fun t => t.res == done && t.hr == advertiser && Memory.readBytes t.mem 0 3 == [0x5a, 0x5a, 0x5a] &&
        t.att == none && t.inbox == [])
      (step (pending (Command.mk [(0, 0x5a), (1, 0x5a), (2, 0x5a)] [0x01, 0xcd, 0xab, 0xfe, 0xca]
        (some { buffer := 0, cap := 3 })) State.reset)) = true := by
  decide

/-- A word placed by `withFetchWord` is the next command that runs: INIT from reset. -/
theorem test_withFetchWord_runs :
    nextWith (fun t => t.hr == advertiser && t.res == done) (step (State.reset.withFetchWord 40 0xcafeabcd01)) = true := by
  decide

/-- V1, V2, V4: a read of a field of `RES` that holds no value faults. -/
theorem test_hostRead :
    hostRead .resFrameLen { State.reset with res := { done with frameLen := some 14 } } = .ok 14 ∧
    hostRead .resFrameLen { State.reset with res := { done with ts := some 1 } } = .error (.noValue .resFrameLen) ∧
    hostRead .resPanId { State.reset with res := failed 0x01 0x01 } = .error (.noValue .resPanId) := by
  decide

/-- V6: `SEQ` holds no value before INIT. -/
theorem test_readSeq_before_init : readSeq State.reset = .error (.noValue .seq) := by decide

/-- The memory of the created block is canonical, and so is a memory with a zero written back over it. -/
theorem test_memory_wf :
    Memory.wf State.reset.mem ∧ Memory.write (Memory.write [] 7 0x12) 7 0x00 = [] ∧
    Memory.write (Memory.write [] 7 0x12) 3 0x34 = [(3, 0x34), (7, 0x12)] := by decide

/-- P4, step 4: the frame of A, carried to B, is B's next command. -/
theorem test_carry_P4 :
    (System.carry 0 0 1 2 2400
      [{ State.reset with txLog := [{ instant := 1600, bytes := adv1600, len := 16 }] }, State.reset]).map
        (fun s => s.inbox.map fun
          | .command c => (c.desc, c.stores.length)
          | .overlapping _ _ => ([], 0)) =
      [[], [([0x06, 0x10, 0x00, 0x60, 0x09, 0x00, 0x00, 0x00, 0x00, 0x00, 0x00], 16)]] := by
  decide

/-! ## Witnesses: each obligation's hypotheses are met together, each clause at a boundary of its range -/

/-- The buffer of `block`. -/
def tested (cap : Half) : Attachment := { buffer := 0, cap := cap }

/-- A frame of `k` payload bytes for PAN 0xabcd, broadcast, from 0xcafe. -/
def framed (k : Nat) : List Byte := frameBytes 0 0xabcd 0xffff 0xcafe (List.replicate k 0x5a)

/-- A memory that reads as `m` below address 65000 and differs there. -/
def changedAbove (m : Memory) : Memory := Memory.write m 65000 0x5a

/-- SEND_ADV with a clock value of `2^40 - 500` ready (H12). -/
def sending : State := { block reference advertiser 16 [] with clockIn := [0xfffffffe0c] }

theorem changedAbove_inside (m : Memory) (n : Nat) (h : n ≤ 65000) : sameInside m (changedAbove m) 0 n := by
  intro x hx
  rw [changedAbove, Memory.read_write, if_neg (by omega)]

/-! ### Encodings and the step -/

/-- The opcodes next to the legal range, and lengths next to the legal one. -/
theorem witness_DecoderFollowsTheOpcodeMap :
    descriptorLegal [0x08, 0x00, 0x00] = true ∧
    ([0x00] ≠ ([] : List Byte) ∧ opcodeLegal [0x00] = false ∧ opcodeLegal [0x09] = false ∧ opcodeLegal [0xff] = false) ∧
    (opcodeLegal [0x01, 0x00, 0x00, 0x00] = true ∧ lengthLegal [0x01, 0x00, 0x00, 0x00] = false) ∧
    (opcodeLegal [0x05, 0x00] = true ∧ lengthLegal [0x05, 0x00] = false) := by decide

theorem witness_StepRunsTheDecodedCommand :
    (pending ⟨[], [0x05], some (tested 16)⟩ State.reset).inbox = [.command ⟨[], [0x05], some (tested 16)⟩] ∧
    decode [0x05] = .ok .sendAdv ∧
    ∃ t, exec .sendAdv { State.reset with
      mem := hostStores State.reset.mem [], att := some (tested 16), inbox := [] } = .next t :=
  ⟨rfl, rfl, _, rfl⟩

/-- One command for each clause: a bad opcode, a length one too long, no buffer, INIT with a buffer, a legal command. -/
theorem witness_IllegalDescriptorsRaiseIllegalCommand :
    (∀ c, (pending c State.reset).inbox = .command c :: []) ∧
    ([0x00] ≠ ([] : List Byte) ∧ opcodeLegal [0x00] = false) ∧
    (opcodeLegal [0x05, 0x00] = true ∧ lengthLegal [0x05, 0x00] = false) ∧
    (descriptorLegal [0x05] = true ∧ bufferLegal [0x05] (none : Option Attachment).isSome = false) ∧
    [0x01, 0xcd, 0xab, 0xfe, 0xca] = encode (.init 0xabcd 0xcafe) ∧
    commandLegal [0x05] (some (tested 0)).isSome = true :=
  ⟨fun _ => rfl, by decide, by decide, by decide, by decide, by decide⟩

theorem witness_EmptyDescriptorRaisesBadLength :
    (pending ⟨[], [], none⟩ State.reset).inbox = .command ⟨[], [], none⟩ :: [] ∧
    (⟨[], [], none⟩ : Command).desc = [] := ⟨rfl, rfl⟩

theorem witness_OverlappingCommandsAreRefused :
    ({ State.reset with inbox := [.overlapping ⟨[], [0x05], none⟩ ⟨[], [0x08], none⟩] }).inbox =
      [.overlapping ⟨[], [0x05], none⟩ ⟨[], [0x08], none⟩] := rfl

theorem witness_BlockHoldsItsStateBetweenCommands : State.reset.inbox = [] := rfl

/-! ### Buffers -/

/-- ENCAP's move in a buffer it fills exactly, overlapping. -/
theorem witness_MemMoveCopiesThroughATemporary :
    9 + 12 ≤ (⟨0, 21⟩ : Region).cap ∧ 0 + 12 ≤ (⟨0, 21⟩ : Region).cap := by decide

/-- Two memories written in different orders. -/
theorem witness_CanonicalMemoriesThatReadAlikeAreEqual :
    Memory.wf (Memory.write (Memory.write [] 7 0x12) 3 0x34) ∧ Memory.wf (Memory.write (Memory.write [] 3 0x34) 7 0x12) ∧
    ∀ a, Memory.read (Memory.write (Memory.write [] 7 0x12) 3 0x34) a =
      Memory.read (Memory.write (Memory.write [] 3 0x34) 7 0x12) a := by
  refine ⟨by decide, by decide, fun a => ?_⟩
  by_cases h : a = 3 <;> simp [h]

/-- One command for each clause: a storing command with a buffer, one with none, INIT, TS_READ. -/
theorem witness_CommandsWriteOnlyTheirBuffer :
    (∃ t, exec (.encap 1 2 3 4 3) (block reference uninit 14 []) = .next t) ∧
    (block reference uninit 14 []).att = some (tested 14) ∧
    (∃ t, exec .sendAdv State.reset = .next t) ∧ State.reset.att = none ∧
    (∃ t, exec (.init 1 2) (block reference uninit 14 []) = .next t) ∧
    ∃ t, exec (.tsRead 9) (block reference uninit 14 []) = .next t :=
  ⟨⟨_, rfl⟩, rfl, ⟨_, rfl⟩, rfl, ⟨_, rfl⟩, ⟨_, rfl⟩⟩

theorem witness_CommandsReadOnlyTheirBuffer :
    (block reference uninit 14 [0x41]).att = some (tested 14) ∧
    sameInside (block reference uninit 14 [0x41]).mem (changedAbove (block reference uninit 14 [0x41]).mem) 0 14 ∧
    ∃ t, exec (.encap 1 2 3 4 3) (block reference uninit 14 [0x41]) = .next t :=
  ⟨rfl, changedAbove_inside _ _ (by decide), _, rfl⟩

/-! ### The frame codec -/

/-- A frame that fills the buffer exactly (also an empty payload), and one byte too many (also 65546 > 65535). -/
theorem witness_EncapBuildsTheFrameInPlace :
    (block reference uninit 14 []).att = some (tested 14) ∧
    (3 : Half).toNat + 11 ≤ (tested 14).cap.toNat ∧ (0 : Half).toNat + 11 ≤ (tested 11).cap.toNat ∧
    (tested 13).cap.toNat < (3 : Half).toNat + 11 ∧ (tested 65535).cap.toNat < (65535 : Half).toNat + 11 := by decide

/-- The shortest frame, in a buffer it fills exactly; and a frame one byte too short. -/
theorem witness_DecapReturnsFieldsAndPayload :
    ((block reference uninit 11 (framed 0)).att = some (tested 11) ∧
      (11 : Half).toNat ≤ (tested 11).cap.toNat ∧ 11 ≤ (11 : Half).toNat ∧
      Memory.read (block reference uninit 11 (framed 0)).mem (tested 11).region.base = 0x41 ∧
      Memory.read (block reference uninit 11 (framed 0)).mem ((tested 11).region.base + 1) = 0x88) ∧
    firstError (.decap 10) (block reference uninit 11 (framed 0)) = some (.malformedFrame, .shortFrame) := by decide

/-- The four clauses at their boundaries: 12 in 11 bytes, length 10, each frame-control byte wrong, length 11. -/
theorem witness_DecapChecksInOrder :
    (tested 11).cap.toNat < (12 : Half).toNat ∧
    ((10 : Half).toNat ≤ (tested 10).cap.toNat ∧ (10 : Half).toNat < 11) ∧
    ((11 : Half).toNat ≤ (tested 11).cap.toNat ∧ 11 ≤ (11 : Half).toNat ∧
      (Memory.read (block reference uninit 11 [0x61, 0x88]).mem (tested 11).region.base ≠ 0x41 ∨
        Memory.read (block reference uninit 11 [0x61, 0x88]).mem ((tested 11).region.base + 1) ≠ 0x88)) ∧
    (Memory.read (block reference uninit 11 (framed 0)).mem (tested 11).region.base = 0x41 ∧
      Memory.read (block reference uninit 11 (framed 0)).mem ((tested 11).region.base + 1) = 0x88) := by decide

theorem witness_DecapReadsOnlyTheFrame :
    (block reference uninit 12 (framed 0)).att = some (tested 12) ∧
    sameInside (block reference uninit 12 (framed 0)).mem (changedAbove (block reference uninit 12 (framed 0)).mem)
      (tested 12).region.base (11 : Half).toNat ∧
    ∃ t, exec (.decap 11) (block reference uninit 12 (framed 0)) = .next t :=
  ⟨rfl, changedAbove_inside _ _ (by decide), _, rfl⟩

theorem witness_DecapInvertsEncap :
    (block reference uninit 65535 []).att = some (tested 65535) ∧
    (65524 : Half).toNat + 11 ≤ (tested 65535).cap.toNat := by decide

/-- A block that has transmitted ADV1600. -/
def sentOne : State :=
  { State.create reference with
    hr := advertiser, clkLog := [600], txLog := [{ instant := 1600, bytes := adv1600, len := 16 }] }

theorem sentOne_inv : State.Inv sentOne where
  mem_wf := by decide
  rbuf_wf := by decide
  res_legal := .inl rfl
  tx_shape := fun e he => by
    obtain rfl : e = { instant := 1600, bytes := adv1600, len := 16 } := List.mem_singleton.mp he
    exact .inl ⟨rfl, 0, 0xabcd, 0xcafe, by decide⟩
  tx_wrap40 := by decide
  uninit_logs := by decide
  seq_never := fun _ _ => rfl
  adv_instants := by decide
  released := rfl

/-- ENCAP, PREP_ADV and SEND_ADV in buffers they fill exactly; both kinds of event, loaded into buffers they fill. -/
theorem witness_BuiltFramesPassDecap :
    (∃ t, exec (.encap 1 2 3 4 0) (block reference uninit 11 []) = .next t ∧ t.res.status = some 0x00) ∧
    (∃ t, exec (.prepAdv 600) (block reference advertiser 16 []) = .next t ∧ t.res.status = some 0x00) ∧
    (∃ t, exec .sendAdv sending = .next t ∧ t.res.status = some 0x00) ∧
    (∃ t, exec .sendAdv { sending with clockIn := [600] } = .next t ∧
      t.txLog = [] ++ [{ instant := 1600, bytes := adv1600, len := 16 }] ∧
      (block reference uninit 16 adv1600).att = some (tested 16) ∧
      Memory.readBytes (block reference uninit 16 adv1600).mem (tested 16).region.base 16 = adv1600) ∧
    (∃ t, exec (.processRx 16 1400) (block reference responder 16 adv600) = .next t ∧
      t.txLog = [] ++ [{ instant := 2400, bytes := replyS8, len := 26 }] ∧
      (block reference uninit 26 replyS8).att = some (tested 26) ∧
      Memory.readBytes (block reference uninit 26 replyS8).mem (tested 26).region.base 26 = replyS8) :=
  ⟨⟨_, rfl, rfl⟩, ⟨_, rfl, rfl⟩, ⟨_, rfl, rfl⟩, ⟨_, rfl, by decide, rfl, by decide⟩,
    ⟨_, rfl, by decide, rfl, by decide⟩⟩

/-! ### Timestamps -/

theorem witness_TimestampCodecLaws :
    (0xffffffffff : Tick).toNat < 2 ^ 40 ∧ ([0x0f, 0xde, 0xca, 0xca, 0xfe] : List Byte).length = 5 := by decide

/-- A4: an instant that wraps under one mode only; and a command that hands an instant on. -/
theorem witness_ScheduledInstantArithmetic :
    tsAdd .wrap40 0xfffffffc18 1000 ≠ tsAdd .wrap64 0xfffffffc18 1000 ∧
    ∃ t, exec .sendAdv sending = .next t :=
  ⟨by decide, _, rfl⟩

theorem witness_WrappedInstantIsSmaller :
    (0xfffffffc18 : Tick).toNat < 2 ^ 40 ∧ 2 ^ 40 ≤ (0xfffffffc18 : Tick).toNat + (1000 : BitVec 40).toNat := by decide

/-- The field at the very end of the buffer, and one byte past it. -/
theorem witness_TsWriteStoresFiveBigEndianBytes :
    (block reference uninit 8 []).att = some (tested 8) ∧
    (3 : Half).toNat + 5 ≤ (tested 8).cap.toNat ∧ (tested 8).cap.toNat < (4 : Half).toNat + 5 := by decide

theorem witness_TsReadReturnsTheFieldsNumber :
    (block reference uninit 5 []).att = some (tested 5) ∧
    (0 : Half).toNat + 5 ≤ (tested 5).cap.toNat ∧ (tested 4).cap.toNat < (0 : Half).toNat + 5 := by decide

theorem witness_TsReadInvertsTsWrite :
    (block reference uninit 65535 []).att = some (tested 65535) ∧
    (65530 : Half).toNat + 5 ≤ (tested 65535).cap.toNat := by decide

/-! ### Ranging -/

/-- READY with exactly 16 bytes, before INIT, and READY with 15. -/
theorem witness_PrepAdvBuildsTheAdvertisement :
    (block reference advertiser 16 []).att = some (tested 16) ∧
    ((block reference advertiser 16 []).hr.initDone = true ∧ 16 ≤ (tested 16).cap.toNat) ∧
    (block reference uninit 16 []).hr.initDone = false ∧
    ((block reference advertiser 15 []).hr.initDone = true ∧ (tested 15).cap.toNat < 16) := by decide

theorem witness_AdvertisementDecodesToItsParts :
    (block reference advertiser 16 []).att = some (tested 16) ∧
    (block reference advertiser 16 []).hr.initDone = true ∧ 16 ≤ (tested 16).cap.toNat ∧
    (0xffffffffff : Tick).toNat < 2 ^ 40 := by decide

theorem witness_SendAdvSchedulesOneTransmit :
    (block reference advertiser 16 []).att = some (tested 16) ∧
    ((block reference advertiser 16 []).hr.initDone = true ∧ 16 ≤ (tested 16).cap.toNat) ∧
    (block reference uninit 16 []).hr.initDone = false ∧
    ((block reference advertiser 15 []).hr.initDone = true ∧ (tested 15).cap.toNat < 16) := by decide

theorem witness_EmbeddedTimestampIsTheScheduledInstant :
    sending.att = some (tested 16) ∧ sending.params.tsArith = .wrap40 ∧
    ∃ t, exec .sendAdv sending = .next t ∧ t.res.status = some 0x00 :=
  ⟨rfl, rfl, _, rfl, rfl⟩

/-- SEND_ADV that succeeds in either mode, SEND_ADV that raises, another command, and INIT. -/
theorem witness_OnlySendAdvAdvancesSeq :
    (∃ t, exec .sendAdv sending = .next t ∧ t.res.status = some 0x00 ∧ sending.params.seqAdvance = .never) ∧
    (∃ t, exec .sendAdv { sending with params := { reference with seqAdvance := .onSendAdv } } = .next t ∧
      t.res.status = some 0x00) ∧
    (∃ t, exec .sendAdv State.reset = .next t ∧ t.res.status ≠ some 0x00) ∧
    (∃ t, exec (.prepAdv 0) sending = .next t ∧ Instr.prepAdv 0 ≠ .sendAdv ∧
      ∀ panId address, Instr.prepAdv 0 ≠ .init panId address) ∧
    ∃ t, exec (.init 1 2) sending = .next t :=
  ⟨⟨_, rfl, rfl, rfl⟩, ⟨_, rfl, rfl⟩, ⟨_, rfl, by decide⟩, ⟨_, rfl, by simp, by simp⟩, _, rfl⟩

/-- Before INIT; 17 bytes in 16; length 10; a wrong frame-control byte. -/
theorem witness_ProcessRxChecksInOrder :
    (block reference responder 16 []).att = some (tested 16) ∧ (block reference uninit 16 []).hr.initDone = false ∧
    (block reference responder 16 []).hr.initDone = true ∧
    (tested 16).cap.toNat < (17 : Half).toNat ∧
    ((10 : Half).toNat ≤ (tested 16).cap.toNat ∧ (10 : Half).toNat < 11) ∧
    ((11 : Half).toNat ≤ (tested 16).cap.toNat ∧ 11 ≤ (11 : Half).toNat ∧
      (Memory.read (block reference responder 16 [0x41, 0x89]).mem (tested 16).region.base ≠ 0x41 ∨
        Memory.read (block reference responder 16 [0x41, 0x89]).mem ((tested 16).region.base + 1) ≠ 0x88)) := by decide

/-- A frame of another PAN, a unicast one, and one of 4 payload bytes. -/
theorem witness_FilteredFramesAreDroppedSilently :
    (block reference responder 16 adv600).att = some (tested 16) ∧
    (block reference responder 16 adv600).hr.initDone = true ∧
    (15 : Half).toNat ≤ (tested 16).cap.toNat ∧ 11 ≤ (15 : Half).toNat ∧
    Memory.read (block reference responder 16 adv600).mem (tested 16).region.base = 0x41 ∧
    Memory.read (block reference responder 16 adv600).mem ((tested 16).region.base + 1) = 0x88 ∧
    (15 : Half).toNat - 11 ≠ 5 ∧
    headerField (block reference { responder with panId := 0xabcc } 16 adv600).mem (tested 16).region.base 3 ≠ 0xabcc ∧
    headerField (block reference responder 16 (adv600.set 6 0xfe)).mem (tested 16).region.base 5 ≠ 0xFFFF := by decide

theorem witness_AcceptedAdvertisementIsAnswered :
    (block reference responder 16 adv600).att = some (tested 16) ∧
    (block reference responder 16 adv600).hr.initDone = true ∧
    (16 : Half).toNat ≤ (tested 16).cap.toNat ∧ 11 ≤ (16 : Half).toNat ∧
    Memory.read (block reference responder 16 adv600).mem (tested 16).region.base = 0x41 ∧
    Memory.read (block reference responder 16 adv600).mem ((tested 16).region.base + 1) = 0x88 ∧
    passesFilters (block reference responder 16 adv600).mem (tested 16).region.base (16 : Half).toNat
      (block reference responder 16 adv600).hr.panId := by
  unfold passesFilters; decide

/-- Two states with different buffers of one length, which differ in `SEQ`, `SEQ_ADVANCE`, the logs and `RES`. -/
theorem witness_ProcessRxDependsOnlyOnFrameAndIdentity :
    ∃ s t : State, s = block reference responder 16 adv600 ∧
      t = { s with
        hr := { responder with seq := 9 }, clkLog := [5], res := done, drawCount := 3
        params := { reference with seqAdvance := .onSendAdv }
        mem := Memory.writeBytes [] 65536 adv600, att := some { buffer := 1, cap := 16 } } ∧
      s.att = some (tested 16) ∧ t.att = some { buffer := 1, cap := 16 } ∧
      (∀ i < (16 : Half).toNat, Memory.read s.mem ((tested 16).region.base + i) =
        Memory.read t.mem (({ buffer := 1, cap := 16 } : Attachment).region.base + i)) ∧
      s.hr.panId = t.hr.panId ∧ s.hr.addr = t.hr.addr ∧ s.hr.initDone = t.hr.initDone ∧
      s.params.replyScheduleDelay = t.params.replyScheduleDelay ∧ s.params.tsArith = t.params.tsArith :=
  ⟨_, _, rfl, rfl, rfl, rfl, by decide, rfl, rfl, rfl, rfl, rfl⟩

/-- A reply, a drop of the shortest frame, and a PROCESS_RX that raises. -/
theorem witness_ProcessRxLeavesTheBufferUnspecified :
    (∃ t, exec (.processRx 16 1400) (block reference responder 16 adv600) = .next t) ∧
    frameError (tested 16).region (16 : Half).toNat (block reference responder 16 adv600).mem = none ∧
    (∃ t, exec (.processRx 11 1400) (block reference responder 16 adv600) = .next t) ∧
    frameError (tested 16).region (11 : Half).toNat (block reference responder 16 adv600).mem = none ∧
    responder.initDone = true ∧ (16 : Half).toNat ≤ (tested 16).cap.toNat ∧
    ∃ t, exec (.processRx 10 1400) (block reference responder 16 adv600) = .next t ∧ t.res.status ≠ some 0x00 :=
  ⟨⟨_, rfl⟩, by decide, ⟨_, rfl⟩, by decide, rfl, by decide, _, rfl, by decide⟩

/-- A reply, a drop, and another command with another `RBUF`. -/
theorem witness_RbufHoldsOnlyTheLastReply :
    (∃ t e, exec (.processRx 16 1400) (block reference responder 16 adv600) = .next t ∧ t.txLog = [] ++ [e]) ∧
    (∃ t, exec (.processRx 15 1400) (block reference responder 16 adv600) = .next t ∧ t.txLog = []) ∧
    ∃ t, exec .sendAdv sending = .next t ∧ ∀ len rx, Instr.sendAdv ≠ .processRx len rx :=
  ⟨⟨_, _, rfl, rfl⟩, ⟨_, rfl, rfl⟩, _, rfl, by simp⟩

/-- PREP_ADV; SEND_ADV that succeeds and that raises; PROCESS_RX that replies and that drops. -/
theorem witness_LogsGrowByCommand :
    (∃ t, exec (.prepAdv 1) sending = .next t) ∧
    (∃ t, exec .sendAdv sending = .next t ∧ t.res.status = some 0x00) ∧
    (∃ t, exec .sendAdv State.reset = .next t ∧ t.res.status ≠ some 0x00) ∧
    (∃ t, exec (.processRx 16 1400) (block reference responder 16 adv600) = .next t ∧ t.res.status = some 0x00 ∧
      passesFilters (block reference responder 16 adv600).mem (tested 16).region.base 16 responder.panId) ∧
    (∃ t, exec (.processRx 15 1400) (block reference responder 16 adv600) = .next t ∧ t.res.status = some 0x00 ∧
      ¬ passesFilters (block reference responder 16 adv600).mem (tested 16).region.base 15 responder.panId) := by
  refine ⟨⟨_, rfl⟩, ⟨_, rfl, rfl⟩, ⟨_, rfl, by decide⟩, ⟨_, rfl, rfl, ?_⟩, ⟨_, rfl, rfl, ?_⟩⟩ <;>
    unfold passesFilters <;> decide

theorem witness_TransmitSnapshotsTheFinishedFrame :
    (sending.att = some (tested 16) ∧ ∃ t e, exec .sendAdv sending = .next t ∧ t.txLog = sending.txLog ++ [e]) ∧
    ∃ t e, exec (.processRx 16 1400) (block reference responder 16 adv600) = .next t ∧ t.txLog = [] ++ [e] :=
  ⟨⟨rfl, _, _, rfl, rfl⟩, _, _, rfl, rfl⟩

theorem witness_ReplyToTheSourcesExample :
    (block reference responder 16 adv600).att = some (tested 16) ∧
    (block reference responder 16 adv600).hr.initDone = true ∧ 16 ≤ (tested 16).cap.toNat ∧
    (block reference responder 16 adv600).params.replyScheduleDelay = 1000 ∧
    Memory.readBytes (block reference responder 16 adv600).mem (tested 16).region.base 16 =
      advFrame 0 responder.panId 0xcafe 600 := by decide

theorem witness_OtherPanIsNotAnswered :
    (block reference { responder with panId := 0xcafe } 16 (advFrame 0 0xbabc 0xcafe 600)).att = some (tested 16) ∧
    responder.initDone = true ∧ 16 ≤ (tested 16).cap.toNat ∧
    (block reference { responder with panId := 0xcafe } 16 (advFrame 0 0xbabc 0xcafe 600)).hr.panId = 0xcafe ∧
    Memory.readBytes (block reference { responder with panId := 0xcafe } 16 (advFrame 0 0xbabc 0xcafe 600)).mem
      (tested 16).region.base 16 = advFrame 0 0xbabc 0xcafe 600 := by decide

/-- Addressed to the responder's own address. -/
theorem witness_UnicastAdvertisementIsNotAnswered :
    (block reference responder 16 (frameBytes 0 0xabcd 0x0042 0xcafe (tsBytes 600))).att = some (tested 16) ∧
    responder.initDone = true ∧ 16 ≤ (tested 16).cap.toNat ∧ (0x0042 : Half) ≠ 0xFFFF ∧
    Memory.readBytes (block reference responder 16 (frameBytes 0 0xabcd 0x0042 0xcafe (tsBytes 600))).mem
      (tested 16).region.base 16 = frameBytes 0 responder.panId 0x0042 0xcafe (tsBytes 600) := by decide

theorem witness_ReplyDecodesToItsThreeTimestamps :
    (block reference uninit 26 replyS8).att = some (tested 26) ∧ 26 ≤ (tested 26).cap.toNat ∧
    Memory.readBytes (block reference uninit 26 replyS8).mem (tested 26).region.base 26 =
      replyFrame 0xabcd 0xcafe 0x0042 600 1400 2400 := by decide

/-! ### Errors and state -/

/-- A command with an error of the decoder, one with two conditions at once (H2), and one that reports no error. -/
theorem witness_EveryCommandReportsItsFirstError :
    (∀ c, (pending c State.reset).inbox = .command c :: []) ∧ [(0x05 : Byte), 0x00] ≠ [] ∧
    commandError ⟨[], [0x05, 0x00], none⟩ State.reset = some (.illegalCommand, .badLength) ∧
    commandError ⟨[], [0x04, 0x58, 0x02, 0, 0, 0, 0, 0, 0], some (tested 0)⟩ (block reference uninit 0 []) =
      some (.notInitialised, .handlerUninitialised) ∧
    commandError ⟨[], [0x05], some (tested 16)⟩ sending = none :=
  ⟨fun _ => rfl, by decide, by decide, by decide, by decide⟩

theorem witness_ErrorsHaveNoOtherEffect :
    ∃ t, step (pending ⟨[(0, 0x41)], [0x03, 0x0a, 0x00], some (tested 16)⟩ sentOne) = .next t ∧
      t.res.status ≠ some 0x00 :=
  ⟨_, rfl, by decide⟩

/-- Each of the three commands before INIT, in an empty buffer. -/
theorem witness_HandlerCommandsNeedInit :
    (∃ ts, Instr.prepAdv 600 = .prepAdv ts) ∧ (∃ len rx, Instr.processRx 16 1400 = .processRx len rx) ∧
    (block reference uninit 0 []).att = some (tested 0) ∧ (block reference uninit 0 []).hr.initDone = false :=
  ⟨⟨_, rfl⟩, ⟨_, _, rfl⟩, rfl, rfl⟩

theorem witness_OnlyInitWritesIdentityAndControlState :
    (∃ t, exec (.init 1 2) State.reset = .next t) ∧
    ∃ t, exec (.prepAdv 1) sending = .next t ∧ ∀ panId address, Instr.prepAdv 1 ≠ .init panId address :=
  ⟨⟨_, rfl⟩, _, rfl, by simp⟩

/-- A completed DECAP, which produces five fields and no TS, and a command that raises. -/
theorem witness_EveryCommandReplacesTheResultRecord :
    (∃ t, step (pending ⟨[], [0x03, 0x10, 0x00], some (tested 16)⟩ (block reference uninit 16 adv600)) = .next t ∧
      resultField t.res .resTs = none ∧ (resultField t.res .resSrc).isSome = true) ∧
    ∃ t, step (pending ⟨[], [0x05, 0x00], none⟩ (block reference uninit 16 adv600)) = .next t :=
  ⟨⟨_, rfl, rfl, rfl⟩, _, rfl⟩

theorem witness_OnlyTheIdentityCarriesOver : ∃ t, exec .sendAdv sending = .next t := ⟨_, rfl⟩

theorem witness_CodecCommandsIgnoreTheHandler :
    (∃ t, exec (.encap 1 2 3 4 5) (block reference uninit 16 []) = .next t) ∧
    (∃ t, exec (.decap 16) (block reference uninit 16 adv600) = .next t) ∧
    (∃ t, exec (.tsWrite 11 7) (block reference uninit 16 []) = .next t) ∧
    ∃ t, exec (.tsRead 11) (block reference uninit 16 []) = .next t :=
  ⟨⟨_, rfl⟩, ⟨_, rfl⟩, ⟨_, rfl⟩, _, rfl⟩

theorem witness_ParametersStayAndLogsOnlyGrow :
    ∃ t, step (pending ⟨[], [0x05], some (tested 16)⟩ sending) = .next t := ⟨_, rfl⟩

/-- Block 1 of two steps; a third index has no block. -/
theorem witness_BlocksOfASystemShareNoState :
    (∃ sys, System.stepAt 1 [State.reset, pending ⟨[], [0x05], some (tested 16)⟩ sending] = .next sys) ∧
    (0 ≠ 1) ∧ ∃ sys, System.stepAt 2 [State.reset, State.reset] = .next sys :=
  ⟨⟨_, rfl⟩, by decide, _, rfl⟩

/-- Two created blocks, a step of the first, and a delivery of its only event to the second. -/
theorem witness_BlocksOfASystemDrawFromTheirOwnSources :
    (∃ s t, System.create [reference, reference] = [s, t] ∧ s.drawSource = 0 ∧ t.drawSource = 1) ∧
    (∃ sys, System.stepAt 0 (System.create [reference, reference]) = .next sys) ∧
    System.numbered [sentOne, { State.reset with drawSource := 1 }] ∧
    System.carry 0 0 1 2 1400 [sentOne, { State.reset with drawSource := 1 }] ≠
      [sentOne, { State.reset with drawSource := 1 }] := by
  refine ⟨⟨_, _, rfl, rfl, rfl⟩, ⟨_, rfl⟩, ?_, by decide⟩
  rintro (_ | _ | k) s h
  · cases h; rfl
  · cases h; rfl
  · simp at h

/-! ### Runs -/

/-- A created block with one command, one clock value and one buffer byte waiting for it. -/
def started : State :=
  { State.create reference with
    inbox := [.command ⟨[], [0x01, 0xcd, 0xab, 0xfe, 0xca], none⟩], clockIn := [600], mem := [(3, 0x5a)] }

theorem witness_CreatedBlocksMeetTheInvariant : Started reference started :=
  ⟨_, _, _, _, by decide, rfl⟩

/-- A block with an event in its log and a SEND_ADV to execute. -/
theorem witness_EveryStepKeepsTheInvariant :
    State.Inv { sentOne with inbox := [.command ⟨[], [0x05], some (tested 16)⟩] } ∧
    ∃ t, step { sentOne with inbox := [.command ⟨[], [0x05], some (tested 16)⟩] } = .next t :=
  ⟨{ sentOne_inv with }, _, rfl⟩

theorem witness_ReachableBlocksMeetTheInvariant :
    ∃ t, Started reference started ∧ Reaches started t ∧ t.hr = advertiser :=
  ⟨_, witness_CreatedBlocksMeetTheInvariant, .step _ _ .start rfl, rfl⟩

/-- H9's two SEND_ADVs, with draws 600 and 5000, and a reply between them. -/
def sentTwo : State :=
  { State.create reference with
    hr := advertiser, clkLog := [600, 5000]
    txLog := [{ instant := 1600, bytes := adv1600, len := 16 }, { instant := 2400, bytes := replyS8, len := 26 },
      { instant := 6000, bytes := advFrame 0 0xabcd 0xcafe 6000, len := 16 }] }

theorem witness_MonotonicClockGivesMonotonicInstants :
    State.Inv sentTwo ∧ clockMonotonic sentTwo.clkLog ∧
    ∀ t ∈ sentTwo.clkLog, t.toNat + sentTwo.params.replyScheduleDelay.toNat < 2 ^ 40 := by
  refine ⟨⟨by decide, by decide, .inl rfl, fun e he => ?_, by decide, by decide, fun _ _ => rfl, by decide, rfl⟩, ?_,
    fun t ht => ?_⟩
  · simp only [sentTwo, List.mem_cons, List.not_mem_nil, or_false] at he
    rcases he with rfl | rfl | rfl
    · exact .inl ⟨rfl, 0, 0xabcd, 0xcafe, by decide⟩
    · exact .inr ⟨rfl, 0xabcd, 0xcafe, 0x0042, 600, 1400, by decide⟩
    · exact .inl ⟨rfl, 0, 0xabcd, 0xcafe, rfl⟩
  · unfold clockMonotonic; decide
  · simp only [sentTwo, List.mem_cons, List.not_mem_nil, or_false] at ht
    rcases ht with rfl | rfl <;> simp [show sentTwo.params.replyScheduleDelay = 1000 from rfl]

theorem witness_NoRunOfASerialisedHostStops : Serialised started := by
  intro c d h
  simp [started] at h

/-- P4, steps 3 and 4. -/
theorem witness_TwoNodesExchangeAdvertisementAndReply :
    ∃ (p q : State) (c : Command), p = pending c { State.create reference with hr := advertiser } ∧
      c = ⟨[], [0x05], some (tested 16)⟩ ∧ q = { State.create reference with hr := responder } ∧
      p.inbox = [.command c] ∧ c.desc = encode .sendAdv ∧ c.attach = some (tested 16) ∧ 16 ≤ (tested 16).cap.toNat ∧
      p.hr.initDone = true ∧ q.hr.initDone = true ∧ q.hr.panId = p.hr.panId ∧ q.inbox = [] :=
  ⟨_, _, _, rfl, rfl, rfl, rfl, rfl, rfl, by decide, rfl, rfl, rfl, rfl⟩

end Sys2Proof.Machine.Tests
end

/-! # Proofs about the state (10_state.md): what a command can do, said once, and the obligations that rest on it -/

namespace Sys2Proof.Machine

/-! ### What a command that meets no error does -/

/-- Memory after decapsulation: the payload of the frame of `len` bytes moved to the start of the buffer (R106). -/
def payloadMoved (r : Region) (len : Nat) (m : Memory) : Memory :=
  Memory.writeBytes m r.base (Memory.readBytes m (r.base + 9) (len - 11))

/-- Memory after PROCESS_RX, by a drop or a reply: every byte of the buffer is a draw (R143). -/
def bufferDrawn (r : Region) (len : Nat) (s : State) : Memory :=
  Memory.writeBytes (payloadMoved r len s.mem) r.base (freeBytes s.drawSource s.drawCount r.cap)

/-- The event of a SEND_ADV of handler `h` scheduled for `t` (R133). -/
def advEvent (h : Handler) (t : Tick) : TxEvent :=
  { instant := t, bytes := advFrame h.seq h.panId h.addr t, len := 16 }

/-- The event of a reply of handler `h` to `dst` scheduled for `tReply` (R137, R138). -/
def replyEvent (h : Handler) (dst : Half) (tAdv rx tReply : Tick) : TxEvent :=
  { instant := tReply, bytes := replyFrame h.panId dst h.addr tAdv rx tReply, len := 26 }

/-- What `s` becomes when command `i` completes, guards included: one case per command, two for PROCESS_RX, which drops
or replies. `exec_eq_next_iff` ties it to `exec`. -/
inductive Completes (s : State) : Instr → State → Prop
  | init (panId address : Half) :
      Completes s (.init panId address)
        { s with hr := { panId := panId, addr := address, seq := 0, initDone := true }, res := okResult }
  | encap {panId src dst : Half} {seq : Byte} {n : Half} {a : Attachment} {m : Memory} (hatt : s.att = some a)
      (hcap : n.toNat + 11 ≤ a.region.cap)
      (hm : encapBody a.region s.mem panId src dst seq n.toNat = .ok m) :
      Completes s (.encap panId src dst seq n)
        { s with mem := m, res := { okResult with frameLen := some (BitVec.ofNat 16 (n.toNat + 11)) } }
  | decap {len : Half} {a : Attachment} {f : Decoded} (hatt : s.att = some a) (hcap : len.toNat ≤ a.region.cap)
      (hframe : frameError a.region len.toNat s.mem = none) (hf : f = headerOf s.mem a.region.base len.toNat) :
      Completes s (.decap len)
        { s with
          mem := Memory.writeBytes (payloadMoved a.region len.toNat s.mem) (a.region.base + (len.toNat - 11))
            (freeBytes s.drawSource s.drawCount 11)
          drawCount := s.drawCount + 11
          res := { okResult with
            panId := some f.panId, src := some f.src, dst := some f.dst, seq := some f.seq
            payloadLen := some (BitVec.ofNat 16 f.payloadLen) } }
  | prepAdv {ts : Tick} {a : Attachment} {m : Memory} (hatt : s.att = some a) (hinit : s.hr.initDone = true)
      (hcap : 16 ≤ a.region.cap) (hm : buildAdv a.region ts s.hr s.mem = .ok m) :
      Completes s (.prepAdv ts) { s with mem := m, res := { okResult with frameLen := some 16 } }
  | sendAdv {a : Attachment} {m : Memory} {sched : Tick} (hatt : s.att = some a) (hinit : s.hr.initDone = true)
      (hcap : 16 ≤ a.region.cap)
      (hsched : sched = tsAdd s.params.tsArith (nextClock s) s.params.replyScheduleDelay)
      (hm : buildAdv a.region sched s.hr s.mem = .ok m) :
      Completes s .sendAdv
        { (clockRead s).2 with
          mem := m
          txLog := s.txLog ++ [advEvent s.hr sched]
          hr := { s.hr with seq := seqStep s.params.seqAdvance s.hr.seq }
          res := okResult }
  | drop {len : Half} {rx : Tick} {a : Attachment} (hatt : s.att = some a) (hinit : s.hr.initDone = true)
      (hcap : len.toNat ≤ a.region.cap) (hframe : frameError a.region len.toNat s.mem = none)
      (hfilter : ¬ passesFilters s.mem a.region.base len.toNat s.hr.panId) :
      Completes s (.processRx len rx)
        { s with mem := bufferDrawn a.region len.toNat s, drawCount := s.drawCount + a.region.cap, res := okResult }
  | reply {len : Half} {rx : Tick} {a : Attachment} {rb : Memory} {src : Half} {tAdv tReply : Tick}
      (hatt : s.att = some a) (hinit : s.hr.initDone = true)
      (hcap : len.toNat ≤ a.region.cap) (hframe : frameError a.region len.toNat s.mem = none)
      (hfilter : passesFilters s.mem a.region.base len.toNat s.hr.panId)
      (hsrc : src = headerField s.mem a.region.base 7)
      (hadv : tAdv = tsValue (Memory.readBytes s.mem (a.region.base + 9) 5))
      (hreply : tReply = tsAdd s.params.tsArith rx s.params.replyScheduleDelay)
      (hrb : buildReply s.rbuf s.hr.panId src s.hr.addr tAdv rx tReply = .ok rb) :
      Completes s (.processRx len rx)
        { s with
          rbuf := rb
          txLog := s.txLog ++ [replyEvent s.hr src tAdv rx tReply]
          mem := bufferDrawn a.region len.toNat s
          drawCount := s.drawCount + a.region.cap
          res := okResult }
  | tsWrite {o : Half} {ts : Tick} {a : Attachment} (hatt : s.att = some a) (hcap : o.toNat + 5 ≤ a.region.cap) :
      Completes s (.tsWrite o ts)
        { s with mem := Memory.writeBytes s.mem (a.region.base + o.toNat) (tsBytes ts), res := okResult }
  | tsRead {o : Half} {a : Attachment} (hatt : s.att = some a) (hcap : o.toNat + 5 ≤ a.region.cap) :
      Completes s (.tsRead o)
        { s with res := { okResult with
            ts := some (tsValue (Memory.readBytes s.mem (a.region.base + o.toNat) 5)) } }

/-! ### The error a command raises (R161, R167) -/

/-- No buffer (R74 case 3): every command but INIT asks for one first. -/
theorem exec_noBuffer {i : Instr} {s : State} (hi : ∀ p a, i ≠ .init p a) (hatt : s.att = none) :
    exec i s = raise .illegalCommand .noBuffer s := by
  cases i with
  | init p a => exact absurd rfl (hi p a)
  | _ =>
    simp only [exec, execEncap, execDecap, execPrepAdv, execSendAdv, execProcessRx, execTsWrite, execTsRead,
      withBuffer_none hatt]

/-- The handler commands ask for INIT once they have a buffer (R164, R167 item 2). -/
theorem exec_uninit {i : Instr} {s : State} {a : Attachment} (hi : Instr.needsInit i = true) (hatt : s.att = some a)
    (hinit : s.hr.initDone = false) : exec i s = raise .notInitialised .handlerUninitialised s := by
  cases i with
  | prepAdv | sendAdv | processRx =>
    simp only [exec, execPrepAdv, execSendAdv, execProcessRx, withBuffer_some hatt, requireInit_uninit hinit]
  | _ => cases hi

theorem checkFrame_error {r : Region} {len : Nat} {s : State} {k : Host.Outcome State Fault Refusal}
    {st : Status} {c : Cause}
    (h : (if r.cap < len then some (.bufferOverflow, .lenExceedsBuffer) else frameError r len s.mem) = some (st, c)) :
    checkFrame r len s k = raise st c s := by
  rw [checkFrame_eq]
  split at h
  · cases h; exact if_pos ‹_›
  · rw [if_neg ‹_›, h]

theorem checkFrame_ok {r : Region} {len : Nat} {s : State} {k : Host.Outcome State Fault Refusal}
    (hcap : len ≤ r.cap) (hframe : frameError r len s.mem = none) : checkFrame r len s k = k := by
  rw [checkFrame_eq, if_neg (Nat.not_lt.mpr hcap), hframe]

/-- The buffer and frame conditions come last (R167 items 3 and 4). -/
theorem exec_rangeError {i : Instr} {s : State} {a : Attachment} {st : Status} {c : Cause} (hatt : s.att = some a)
    (hinit : Instr.needsInit i = true → s.hr.initDone = true) (h : rangeError a.region s.mem i = some (st, c)) :
    exec i s = raise st c s := by
  cases i with
  | init => cases h
  | decap len => simpa only [exec, execDecap, withBuffer_some hatt] using checkFrame_error h
  | processRx len rx =>
    simpa only [exec, execProcessRx, withBuffer_some hatt, requireInit_ready (hinit rfl)] using checkFrame_error h
  | encap | tsWrite | tsRead =>
    obtain ⟨hcap, rfl, rfl⟩ := by simpa [rangeError] using h
    simp only [exec, execEncap, execTsWrite, execTsRead, withBuffer_some hatt]
    exact if_pos hcap
  | prepAdv | sendAdv =>
    obtain ⟨hcap, rfl, rfl⟩ := by simpa [rangeError] using h
    simp only [exec, execPrepAdv, execSendAdv, withBuffer_some hatt, requireInit_ready (hinit rfl)]
    exact if_pos hcap

/-- Which errors `firstError` can report, and when: `R167`'s order as three cases. -/
theorem firstError_cases {i : Instr} {s : State} {st : Status} {c : Cause} (h : firstError i s = some (st, c)) :
    ((∀ p a, i ≠ .init p a) ∧ s.att = none ∧ st = .illegalCommand ∧ c = .noBuffer) ∨
    (∃ a, s.att = some a ∧ Instr.needsInit i = true ∧ s.hr.initDone = false ∧
      st = .notInitialised ∧ c = .handlerUninitialised) ∨
    (∃ a, s.att = some a ∧ (Instr.needsInit i = true → s.hr.initDone = true) ∧
      rangeError a.region s.mem i = some (st, c)) := by
  unfold firstError at h
  split at h
  · cases h
  · next hi =>
    split at h
    · next hatt => cases h; exact .inl ⟨hi, hatt, rfl, rfl⟩
    · next a hatt =>
      split at h
      · next hu => cases h; exact .inr (.inl ⟨a, hatt, hu.1, hu.2, rfl, rfl⟩)
      · next hu => exact .inr (.inr ⟨a, hatt, by simpa using hu, h⟩)

/-- A command of which a condition of R161 holds raises the first one, and that is all it does (R167, R168). -/
theorem exec_of_firstError {i : Instr} {s : State} {st : Status} {c : Cause} (h : firstError i s = some (st, c)) :
    exec i s = raise st c s := by
  obtain ⟨hi, hatt, rfl, rfl⟩ | ⟨a, hatt, hi, hinit, rfl, rfl⟩ | ⟨a, hatt, hinit, hr⟩ := firstError_cases h
  · exact exec_noBuffer hi hatt
  · exact exec_uninit hi hatt hinit
  · exact exec_rangeError hatt hinit hr

/-- No condition of R161 holds of a command that has its buffer, INIT done where it needs it, and its range. -/
theorem guards_of_firstError_none {i : Instr} {s : State} (h : firstError i s = none) :
    (∃ p a, i = .init p a) ∨ ∃ a, s.att = some a ∧ (Instr.needsInit i = true → s.hr.initDone = true) ∧
      rangeError a.region s.mem i = none := by
  unfold firstError at h
  split at h
  · exact .inl ⟨_, _, rfl⟩
  · split at h
    · cases h
    · next a hatt =>
      split at h
      · cases h
      · next hu => exact .inr ⟨a, hatt, by simpa using hu, h⟩

/-! ### The completion of a command -/

theorem le_of_frameError_none {r : Region} {len : Nat} {m : Memory} (h : frameError r len m = none) : 11 ≤ len := by
  unfold frameError at h
  split at h
  · cases h
  · omega

/-- A frame that meets no condition of R107 lies in the buffer and passes the tests on its bytes. -/
theorem frame_guards_of_none {r : Region} {len : Nat} {m : Memory}
    (h : (if r.cap < len then some (.bufferOverflow, .lenExceedsBuffer) else frameError r len m) = none) :
    len ≤ r.cap ∧ frameError r len m = none := by
  split at h
  · cases h
  · exact ⟨Nat.not_lt.mp ‹_›, h⟩

/-- The three filters of PROCESS_RX, tested on the header of R106, are those of R136. -/
theorem passesFilters_iff (m : Memory) (base len : Nat) (panId : Half) :
    passesFilters m base len panId ↔ (headerOf m base len).panId = panId ∧
      (headerOf m base len).dst = Config.BROADCAST ∧ (headerOf m base len).payloadLen = Config.ADV_PAYLOAD_LEN :=
  Iff.rfl

/-- PROCESS_RX past its checks drops a frame that fails a filter (R136). -/
theorem processRxBody_drop {r : Region} {len : Nat} {rx : Tick} {s : State} (hlen : 11 ≤ len) (hcap : len ≤ r.cap)
    (hfilter : ¬ passesFilters s.mem r.base len s.hr.panId) :
    processRxBody r len rx s.hr s = finishRx r { s with mem := payloadMoved r len s.mem } := by
  simp only [processRxBody, decapsulate_ok s.mem hlen hcap, bind, Except.bind]
  rw [passesFilters_iff] at hfilter
  split
  · rfl
  · split
    · rfl
    · split
      · rfl
      · exact absurd ⟨not_not.mp ‹_›, not_not.mp ‹_›, not_not.mp ‹_›⟩ hfilter

/-- PROCESS_RX past its checks answers an advertisement that passes the filters (R137). -/
theorem processRxBody_reply {r : Region} {len : Nat} {rx : Tick} {s : State} (hlen : 11 ≤ len) (hcap : len ≤ r.cap)
    (hfilter : passesFilters s.mem r.base len s.hr.panId) :
    processRxBody r len rx s.hr s =
      replyBody r (headerField s.mem r.base 7) rx s.hr { s with mem := payloadMoved r len s.mem } := by
  obtain ⟨hpan, hdst, hpay⟩ := (passesFilters_iff ..).mp hfilter
  simp only [processRxBody, decapsulate_ok s.mem hlen hcap, bind, Except.bind, hpan, hdst, hpay, ne_eq,
    not_true_eq_false, if_false]
  rfl

/-- The payload of an advertisement stands at the start of the buffer after decapsulation (R106). -/
theorem readBytes_payloadMoved {r : Region} {len n : Nat} (m : Memory) (h : len - 11 = n) :
    Memory.readBytes (payloadMoved r len m) r.base n = Memory.readBytes m (r.base + 9) n := by
  subst h
  have := Memory.readBytes_writeBytes m r.base (Memory.readBytes m (r.base + 9) (len - 11))
  rwa [Memory.readBytes_length] at this

/-- The reply of PROCESS_RX hands the frame of R88 to the transmit sink and ends as a drop does (R137, R138, R143). -/
theorem replyBody_ok {r : Region} {src : Half} {rx : Tick} {h : Handler} {s : State} {tAdv tReply : Tick} {rb : Memory}
    (hcap : 5 ≤ r.cap) (hadv : tAdv = tsValue (Memory.readBytes s.mem r.base 5))
    (hreply : tReply = tsAdd s.params.tsArith rx s.params.replyScheduleDelay)
    (hrb : buildReply s.rbuf h.panId src h.addr tAdv rx tReply = .ok rb) :
    replyBody r src rx h s = finishRx r (transmit tReply (replyFrame h.panId src h.addr tAdv rx tReply)
      { s with rbuf := rb }) := by
  subst hadv hreply
  obtain ⟨rb', he, hframe, -⟩ := buildReply_spec s.rbuf h.panId src h.addr _ rx _
  cases he.symm.trans hrb
  simp only [replyBody, bind, Except.bind]
  rw [memRead_ok _ (by simpa [Config.TS_LEN] using hcap)]
  simp only [Config.TS_LEN, Nat.add_zero, hrb]
  rw [memRead_ok (r := rbufRegion) _ (by decide)]
  exact congrArg (fun f => finishRx r (transmit _ f _)) hframe

/-- Each completion is what `exec` answers. -/
theorem Completes.exec_eq {i : Instr} {s t : State} (h : Completes s i t) : exec i s = .next t := by
  cases h with
  | init => rfl
  | encap hatt hcap hm =>
    simp [exec, execEncap, withBuffer_some hatt, Config.MIN_FRAME_LEN, Nat.not_lt.mpr hcap, hm, bind, Except.bind,
      pure, Except.pure, complete]
  | @decap len _ _ hatt hcap hframe hf =>
    subst hf
    have hlen := le_of_frameError_none hframe
    simp only [exec, execDecap, withBuffer_some hatt, checkFrame_ok hcap hframe, decapBody,
      decapsulate_ok s.mem hlen hcap, bind, Except.bind]
    rw [fillDraws_ok _ (by simp only [headerOf]; omega)]
    simp [headerOf, show len.toNat - (len.toNat - 11) = 11 by omega, pure, Except.pure, complete, payloadMoved]
  | prepAdv hatt hinit hcap hm =>
    simp [exec, execPrepAdv, withBuffer_some hatt, requireInit_ready hinit, Config.ADV_FRAME_LEN, Nat.not_lt.mpr hcap,
      hm, bind, Except.bind, pure, Except.pure, complete]
  | sendAdv hatt hinit hcap hsched hm =>
    subst hsched
    obtain ⟨m', he, hframe, -⟩ := buildAdv_spec
      (tsAdd s.params.tsArith (nextClock s) s.params.replyScheduleDelay) s.hr s.mem hcap
    cases he.symm.trans hm
    simp [exec, execSendAdv, withBuffer_some hatt, requireInit_ready hinit, Config.ADV_FRAME_LEN, Nat.not_lt.mpr hcap,
      sendAdvBody, hm, memRead_ok, hcap, hframe, bind, Except.bind, pure, Except.pure, complete, transmit, advEvent]
  | drop hatt hinit hcap hframe hfilter =>
    simp only [exec, execProcessRx, withBuffer_some hatt, requireInit_ready hinit, checkFrame_ok hcap hframe,
      processRxBody_drop (le_of_frameError_none hframe) hcap hfilter, finishRx_ok]
    rfl
  | reply hatt hinit hcap hframe hfilter hsrc hadv hreply hrb =>
    subst hsrc
    have hlen := le_of_frameError_none hframe
    rw [← readBytes_payloadMoved s.mem hfilter.2.2] at hadv
    simp only [exec, execProcessRx, withBuffer_some hatt, requireInit_ready hinit, checkFrame_ok hcap hframe,
      processRxBody_reply hlen hcap hfilter]
    rw [replyBody_ok (s := { s with mem := payloadMoved _ _ s.mem }) (by omega) hadv hreply hrb, finishRx_ok]
    rfl
  | @tsWrite o ts a hatt hcap =>
    have hm := memWrite_ok (s := tsBytes ts) s.mem hcap
    simp [exec, execTsWrite, withBuffer_some hatt, Config.TS_LEN, Nat.not_lt.mpr hcap, hm, bind,
      Except.bind, pure, Except.pure, complete]
  | tsRead hatt hcap =>
    simp [exec, execTsRead, withBuffer_some hatt, Config.TS_LEN, Nat.not_lt.mpr hcap, memRead_ok, hcap, bind,
      Except.bind, pure, Except.pure, complete]

/-- A command of which no condition of R161 holds completes. -/
theorem exists_completes {i : Instr} {s : State} (h : firstError i s = none) : ∃ t, Completes s i t := by
  obtain ⟨p, a, rfl⟩ | ⟨a, hatt, hinit, hr⟩ := guards_of_firstError_none h
  · exact ⟨_, .init p a⟩
  cases i with
  | init p a => exact ⟨_, .init p a⟩
  | encap p src dst q n =>
    have hcap : n.toNat + 11 ≤ a.region.cap := by simpa [rangeError] using hr
    obtain ⟨m, hm, -⟩ := encapBody_spec s.mem p src dst q hcap
    exact ⟨_, .encap hatt hcap hm⟩
  | decap len =>
    obtain ⟨hcap, hframe⟩ := frame_guards_of_none hr
    exact ⟨_, .decap hatt hcap hframe rfl⟩
  | prepAdv ts =>
    have hcap : 16 ≤ a.region.cap := by simpa [rangeError] using hr
    obtain ⟨m, hm, -⟩ := buildAdv_spec ts s.hr s.mem hcap
    exact ⟨_, .prepAdv hatt (hinit rfl) hcap hm⟩
  | sendAdv =>
    have hcap : 16 ≤ a.region.cap := by simpa [rangeError] using hr
    obtain ⟨m, hm, -⟩ := buildAdv_spec _ s.hr s.mem hcap
    exact ⟨_, .sendAdv hatt (hinit rfl) hcap rfl hm⟩
  | processRx len rx =>
    obtain ⟨hcap, hframe⟩ := frame_guards_of_none hr
    by_cases hfilter : passesFilters s.mem a.region.base len.toNat s.hr.panId
    · obtain ⟨rb, hrb, -⟩ := buildReply_spec s.rbuf s.hr.panId _ s.hr.addr _ rx _
      exact ⟨_, .reply hatt (hinit rfl) hcap hframe hfilter rfl rfl rfl hrb⟩
    · exact ⟨_, .drop hatt (hinit rfl) hcap hframe hfilter⟩
  | tsWrite o ts => exact ⟨_, .tsWrite hatt (by simpa [rangeError] using hr)⟩
  | tsRead o => exact ⟨_, .tsRead hatt (by simpa [rangeError] using hr)⟩

/-- All that a command can do, in both directions: it raises its first error, or it completes. -/
theorem exec_eq_next_iff {i : Instr} {s t : State} :
    exec i s = .next t ↔
      (∃ st c, firstError i s = some (st, c) ∧ t = { s with res := errorResult st c }) ∨ Completes s i t := by
  constructor
  · intro h
    cases he : firstError i s with
    | some p => exact .inl ⟨p.1, p.2, rfl, by simpa [raise] using h.symm.trans (exec_of_firstError he)⟩
    | none =>
      obtain ⟨u, hu⟩ := exists_completes he
      cases h.symm.trans hu.exec_eq
      exact .inr hu
  · rintro (⟨st, c, he, rfl⟩ | hc)
    · exact exec_of_firstError he
    · exact hc.exec_eq

/-! ### All that a step can do -/

theorem returned_eq_next_iff {o : Host.Outcome State Fault Refusal} {t : State} :
    returned o = .next t ↔ ∃ u, o = .next u ∧ t = release u := by
  cases o <;> simp [returned, eq_comm]

/-- All that a descriptor can do: it raises the command's first error, or it decodes to a command that completes. -/
theorem runDescriptor_eq_next_iff {c : Command} {s t : State} :
    runDescriptor c.desc s = .next t ↔
      (∃ st ca, commandError c s = some (st, ca) ∧ t = { s with res := errorResult st ca }) ∨
      ∃ i, decode c.desc = .ok i ∧ Completes s i t := by
  cases hd : decode c.desc with
  | error e => cases e <;> simp [runDescriptor, commandError, hd, raiseIllegal, raise, eq_comm]
  | ok i => simp [runDescriptor, commandError, hd, exec_eq_next_iff]

theorem step_of_command {s : State} {c : Command} {rest : List Delivery} (h : s.inbox = .command c :: rest) :
    step s = returned (runDescriptor c.desc (accept c rest s)) := by
  simp only [step, h]

/-- All that a step can do: nothing when idle, else it takes the next command, runs it and releases the buffer. -/
theorem step_cases {s t : State} (h : step s = .next t) :
    t = s ∨ ∃ c rest u, runDescriptor c.desc (accept c rest s) = .next u ∧ t = release u := by
  cases hin : s.inbox with
  | nil => simp only [step, hin] at h; cases h; exact .inl rfl
  | cons d rest =>
    cases d with
    | command c =>
      obtain ⟨u, hu, rfl⟩ := returned_eq_next_iff.mp ((step_of_command hin).symm.trans h)
      exact .inr ⟨c, rest, u, hu, rfl⟩
    | overlapping c d => simp only [step, hin] at h; cases h

/-! ### The result record (R30, R31) -/

/-- A command that completes reports OK and NONE, and exactly the fields of R30 hold a value besides. -/
theorem Completes.res_fields {i : Instr} {s t : State} (h : Completes s i t) :
    t.res.status = some 0x00 ∧ ∀ f, (resultField t.res f).isSome = true ↔
      f = .resStatus ∨ f = .resCause ∨ f ∈ Instr.produces i := by
  cases h <;> refine ⟨rfl, fun f => ?_⟩ <;> cases f <;> simp [resultField, Instr.produces]

/-- After an error only STATUS and CAUSE hold a value (R168). -/
theorem errorResult_fields (st : Status) (c : Cause) (f : Field) :
    (resultField (errorResult st c) f).isSome = true ↔ f = .resStatus ∨ f = .resCause := by
  cases f <;> simp [resultField]

/-- No completion depends on the old record. -/
theorem Completes.of_res {i : Instr} {s t : State} (h : Completes s i t) (r : Result) :
    Completes { s with res := r } i t := by
  cases h with
  | init p a => exact .init p a
  | encap hatt hcap hm => exact .encap hatt hcap hm
  | decap hatt hcap hframe hf => exact .decap hatt hcap hframe hf
  | prepAdv hatt hinit hcap hm => exact .prepAdv hatt hinit hcap hm
  | sendAdv hatt hinit hcap hsched hm => exact .sendAdv hatt hinit hcap hsched hm
  | drop hatt hinit hcap hframe hfilter => exact .drop hatt hinit hcap hframe hfilter
  | reply hatt hinit hcap hframe hfilter hsrc hadv hreply hrb =>
    exact .reply hatt hinit hcap hframe hfilter hsrc hadv hreply hrb
  | tsWrite hatt hcap => exact .tsWrite hatt hcap
  | tsRead hatt hcap => exact .tsRead hatt hcap

theorem runDescriptor_of_res {c : Command} {s t : State} (h : runDescriptor c.desc s = .next t) (r : Result) :
    runDescriptor c.desc { s with res := r } = .next t := by
  rw [runDescriptor_eq_next_iff] at h ⊢
  obtain ⟨st, ca, he, rfl⟩ | ⟨i, hd, hc⟩ := h
  · exact .inl ⟨st, ca, he, rfl⟩
  · exact .inr ⟨i, hd, hc.of_res r⟩

/-- Settles O48: a step raises or completes (`runDescriptor_eq_next_iff`), and both write the whole record. -/
theorem everyCommandReplacesTheResultRecord : Obligations.EveryCommandReplacesTheResultRecord := by
  intro s t c rest hin hstep
  obtain ⟨u, hu, rfl⟩ := returned_eq_next_iff.mp ((step_of_command hin).symm.trans hstep)
  refine ⟨fun r => ?_, fun f => ?_, fun f hf => by simp only [hostRead, hf, readHeld_none]⟩
  · rw [step_of_command (s := { s with res := r }) hin]
    exact returned_eq_next_iff.mpr ⟨u, runDescriptor_of_res hu r, rfl⟩
  · obtain ⟨st, ca, -, rfl⟩ | ⟨i, hd, hc⟩ := runDescriptor_eq_next_iff.mp hu
    · simp [errorResult_fields]
    · obtain ⟨hok, hfields⟩ := hc.res_fields
      simp [hfields, hok, hd]

/-! ### What carries over from one command to the next (R25, R36, R192) -/

/-- A completion reads neither `RES` nor `RBUF` nor a log, and its new log entries do not depend on them. -/
theorem Completes.carries_over {i : Instr} {s t : State} (h : Completes s i t) (r : Result) (rb : Memory)
    (tx : List TxEvent) (clk : List Tick) :
    ∃ t' sent drawn, Completes { s with res := r, rbuf := rb, txLog := tx, clkLog := clk } i t' ∧
      t'.res = t.res ∧ t'.mem = t.mem ∧ t'.hr = t.hr ∧
      t.txLog = s.txLog ++ sent ∧ t'.txLog = tx ++ sent ∧
      t.clkLog = s.clkLog ++ drawn ∧ t'.clkLog = clk ++ drawn := by
  cases h with
  | init p a => exact ⟨_, [], [], .init p a, rfl, rfl, rfl, by simp⟩
  | encap hatt hcap hm => exact ⟨_, [], [], .encap hatt hcap hm, rfl, rfl, rfl, by simp⟩
  | decap hatt hcap hframe hf => exact ⟨_, [], [], .decap hatt hcap hframe hf, rfl, rfl, rfl, by simp⟩
  | prepAdv hatt hinit hcap hm => exact ⟨_, [], [], .prepAdv hatt hinit hcap hm, rfl, rfl, rfl, by simp⟩
  | sendAdv hatt hinit hcap hsched hm =>
    exact ⟨_, [advEvent s.hr _], [nextClock s], .sendAdv hatt hinit hcap hsched hm,
      rfl, rfl, rfl, rfl, rfl, rfl, rfl⟩
  | drop hatt hinit hcap hframe hfilter =>
    exact ⟨_, [], [], .drop hatt hinit hcap hframe hfilter, rfl, rfl, rfl, by simp⟩
  | reply hatt hinit hcap hframe hfilter hsrc hadv hreply hrb =>
    obtain ⟨rb', hrb', -⟩ := buildReply_spec rb s.hr.panId _ s.hr.addr _ _ _
    exact ⟨_, [replyEvent s.hr _ _ _ _], [], .reply hatt hinit hcap hframe hfilter hsrc hadv hreply hrb',
      rfl, rfl, rfl, rfl, rfl, by simp⟩
  | tsWrite hatt hcap => exact ⟨_, [], [], .tsWrite hatt hcap, rfl, rfl, rfl, by simp⟩
  | tsRead hatt hcap => exact ⟨_, [], [], .tsRead hatt hcap, rfl, rfl, rfl, by simp⟩

/-- Settles O49: an error reads only what the two states share, and a completion carries over. -/
theorem onlyTheIdentityCarriesOver : Obligations.OnlyTheIdentityCarriesOver := by
  intro i s t r rb tx clk h
  obtain ⟨st, c, he, rfl⟩ | hc := exec_eq_next_iff.mp h
  · exact ⟨_, [], [], exec_eq_next_iff.mpr (.inl ⟨st, c, he, rfl⟩), by simp⟩
  · obtain ⟨t', sent, drawn, hc', hsame⟩ := hc.carries_over r rb tx clk
    exact ⟨t', sent, drawn, hc'.exec_eq, hsame⟩

/-- Settles O50: the premises of a codec command's completion, and of its errors, name none of these fields. -/
theorem codecCommandsIgnoreTheHandler : Obligations.CodecCommandsIgnoreTheHandler := by
  intro i s t h rb tx clk hi hexec
  obtain ⟨st, c, he, rfl⟩ | hc := exec_eq_next_iff.mp hexec
  · refine ⟨rfl, rfl, rfl, rfl, exec_of_firstError (he ▸ ?_)⟩
    rcases hi with ⟨p, q, d, n, l, rfl⟩ | ⟨l, rfl⟩ | ⟨o, ts, rfl⟩ | ⟨o, rfl⟩ <;> rfl
  · rcases hi with ⟨p, q, d, n, l, rfl⟩ | ⟨l, rfl⟩ | ⟨o, ts, rfl⟩ | ⟨o, rfl⟩
    · cases hc with
      | encap hatt hcap hm => exact ⟨rfl, rfl, rfl, rfl, Completes.exec_eq (.encap hatt hcap hm)⟩
    · cases hc with
      | decap hatt hcap hframe hf => exact ⟨rfl, rfl, rfl, rfl, Completes.exec_eq (.decap hatt hcap hframe hf)⟩
    · cases hc with
      | tsWrite hatt hcap => exact ⟨rfl, rfl, rfl, rfl, Completes.exec_eq (.tsWrite hatt hcap)⟩
    · cases hc with
      | tsRead hatt hcap => exact ⟨rfl, rfl, rfl, rfl, Completes.exec_eq (.tsRead hatt hcap)⟩

/-! ### Parameters and logs (R27, R28, R33, R34) -/

theorem Completes.params_eq {i : Instr} {s t : State} (h : Completes s i t) : t.params = s.params := by
  cases h <;> rfl

theorem runDescriptor_params_logs {c : Command} {s t : State} (h : runDescriptor c.desc s = .next t) :
    t.params = s.params ∧ s.txLog <+: t.txLog ∧ s.clkLog <+: t.clkLog := by
  obtain ⟨st, ca, -, rfl⟩ | ⟨i, -, hc⟩ := runDescriptor_eq_next_iff.mp h
  · exact ⟨rfl, by simp⟩
  · obtain ⟨-, sent, drawn, -, -, -, -, htx, -, hclk, -⟩ := hc.carries_over s.res s.rbuf s.txLog s.clkLog
    exact ⟨hc.params_eq, ⟨sent, htx.symm⟩, ⟨drawn, hclk.symm⟩⟩

/-- Settles O52: an idle step changes nothing, an error only `RES`, and a completion appends its new entries. -/
theorem parametersStayAndLogsOnlyGrow : Obligations.ParametersStayAndLogsOnlyGrow := by
  intro s t h
  obtain rfl | ⟨c, rest, u, hu, rfl⟩ := step_cases h
  · exact ⟨rfl, by simp⟩
  · exact (runDescriptor_params_logs hu :)

/-! ### The invariant -/

/-! #### The memories a completion leaves are in canonical form -/

theorem encapBody_wf {r : Region} {n : Nat} {m m' : Memory} {p s d : Half} {q : Byte} (hcap : n + 11 ≤ r.cap)
    (hm : encapBody r m p s d q n = .ok m') (h : Memory.wf m) : Memory.wf m' := by
  obtain ⟨m'', he, -, -, hw, -⟩ := encapBody_spec m p s d q hcap
  cases he.symm.trans hm
  exact hw h

theorem buildAdv_wf {r : Region} {t : Tick} {hr : Handler} {m m' : Memory} (hcap : 16 ≤ r.cap)
    (hm : buildAdv r t hr m = .ok m') (h : Memory.wf m) : Memory.wf m' := by
  obtain ⟨m'', he, -, -, hw⟩ := buildAdv_spec t hr m hcap
  cases he.symm.trans hm
  exact hw h

/-- A reply keeps `RBUF` canonical and within its 26 bytes (R32). -/
theorem buildReply_wf {rb rb' : Memory} {p d a : Half} {tAdv rx tReply : Tick}
    (hrb : buildReply rb p d a tAdv rx tReply = .ok rb') (h : Memory.wf rb ∧ ∀ c ∈ rb, c.1 < 26) :
    Memory.wf rb' ∧ ∀ c ∈ rb', c.1 < 26 := by
  obtain ⟨rb'', he, -, hw, hlt⟩ := buildReply_spec rb p d a tAdv rx tReply
  cases he.symm.trans hrb
  exact ⟨hw h.1, hlt h.2⟩

theorem payloadMoved_wf {r : Region} {len : Nat} {m : Memory} (h : Memory.wf m) : Memory.wf (payloadMoved r len m) :=
  Memory.wf_writeBytes h _ _

theorem bufferDrawn_wf {r : Region} {len : Nat} {s : State} (h : Memory.wf s.mem) :
    Memory.wf (bufferDrawn r len s) :=
  Memory.wf_writeBytes (payloadMoved_wf h) _ _

/-! #### The records a command leaves are legal (R161) -/

theorem Result.legal_of_ok {r : Result} (hs : r.status = some 0x00) (hc : r.cause = some 0x00) (ht : r.ts = none) :
    Result.legal r :=
  .inr (.inl ⟨hs, hc, by simp [ht]⟩)

/-- The value of a timestamp field has 40 bits (R122). -/
theorem tsValue_readBytes_lt (m : Memory) (a : Nat) : (tsValue (Memory.readBytes m a 5)).toNat < 2 ^ 40 := by
  simp only [Memory.readBytes, tsValue_toNat]
  omega

theorem rangeError_mem {r : Region} {m : Memory} {i : Instr} {p : Status × Cause} (h : rangeError r m i = some p) :
    p ∈ errorPairs := by
  cases i with
  | init => cases h
  | _ =>
    simp only [rangeError, frameError] at h
    split_ifs at h <;> cases h <;> decide

theorem commandError_mem {c : Command} {s : State} {st : Status} {ca : Cause}
    (h : commandError c s = some (st, ca)) : (st, ca) ∈ errorPairs := by
  unfold commandError at h
  split at h
  · cases h; decide
  · cases h; decide
  · obtain ⟨-, -, rfl, rfl⟩ | ⟨-, -, -, -, rfl, rfl⟩ | ⟨a, -, -, hr⟩ := firstError_cases h
    · decide
    · decide
    · exact rangeError_mem hr

/-! #### The transmit events -/

theorem isAdv_advEvent (h : Handler) (t : Tick) : (advEvent h t).isAdv := ⟨rfl, _, _, _, rfl⟩

theorem isReply_replyEvent (h : Handler) (dst : Half) (tAdv rx tReply : Tick) :
    (replyEvent h dst tAdv rx tReply).isReply := ⟨rfl, _, _, _, _, _, rfl⟩

/-- Under `WRAP40` a scheduled instant has 40 bits (R120, R126). -/
theorem tsAdd_lt_of_wrap40 {mode : TsArith} (h : mode = .wrap40) (t : Tick) (d : BitVec 40) :
    (tsAdd mode t d).toNat < 2 ^ 40 := by
  rw [h, tsAdd_toNat]
  exact Nat.mod_lt _ (by decide)

/-! #### The invariant step by step -/

/-- Taking a command and releasing its buffer at once keeps the invariant. -/
theorem State.Inv.release_accept {s : State} (h : State.Inv s) (c : Command) (rest : List Delivery) :
    State.Inv (release (accept c rest s)) :=
  { h with mem_wf := hostStores_wf h.mem_wf c.stores, released := rfl }

/-- A command that writes only memory and `RES` keeps the invariant. -/
theorem State.Inv.set_mem_res {s : State} (h : State.Inv (release s)) {m : Memory} {n : Nat} {r : Result}
    (hm : Memory.wf m) (hr : Result.legal r) :
    State.Inv (release { s with mem := m, drawCount := n, res := r }) :=
  { h with mem_wf := hm, res_legal := hr }

/-- Every completion keeps the invariant. -/
theorem Completes.inv {i : Instr} {s t : State} (hc : Completes s i t) (h : State.Inv (release s)) :
    State.Inv (release t) := by
  have hmem : Memory.wf s.mem := h.mem_wf
  have hok : Result.legal okResult := Result.legal_of_ok rfl rfl rfl
  cases hc with
  | init p a => exact { h with res_legal := hok, uninit_logs := nofun, seq_never := fun _ _ => rfl }
  | encap hatt hcap hm => exact h.set_mem_res (encapBody_wf hcap hm hmem) (Result.legal_of_ok rfl rfl rfl)
  | decap => exact h.set_mem_res (Memory.wf_writeBytes (payloadMoved_wf hmem) _ _) (Result.legal_of_ok rfl rfl rfl)
  | prepAdv hatt hinit hcap hm => exact h.set_mem_res (buildAdv_wf hcap hm hmem) (Result.legal_of_ok rfl rfl rfl)
  | sendAdv hatt hinit hcap hsched hm =>
    subst hsched
    exact
      { h with
        mem_wf := buildAdv_wf hcap hm hmem
        res_legal := hok
        tx_shape := List.forall_mem_append.mpr
          ⟨h.tx_shape, List.forall_mem_singleton.mpr (.inl (isAdv_advEvent ..))⟩
        tx_wrap40 := fun hw => List.forall_mem_append.mpr
          ⟨h.tx_wrap40 hw, List.forall_mem_singleton.mpr (tsAdd_lt_of_wrap40 hw ..)⟩
        uninit_logs := fun hu => absurd (hinit.symm.trans hu) nofun
        seq_never := fun hu hn => (congrArg (seqStep · s.hr.seq) hn).trans (h.seq_never hu hn)
        adv_instants := by simpa [advEvent] using h.adv_instants }
  | drop => exact h.set_mem_res (bufferDrawn_wf hmem) hok
  | reply hatt hinit hcap hframe hfilter hsrc hadv hreply hrb =>
    subst hreply
    exact
      { h with
        mem_wf := bufferDrawn_wf hmem
        rbuf_wf := buildReply_wf hrb h.rbuf_wf
        res_legal := hok
        tx_shape := List.forall_mem_append.mpr
          ⟨h.tx_shape, List.forall_mem_singleton.mpr (.inr (isReply_replyEvent ..))⟩
        tx_wrap40 := fun hw => List.forall_mem_append.mpr
          ⟨h.tx_wrap40 hw, List.forall_mem_singleton.mpr (tsAdd_lt_of_wrap40 hw ..)⟩
        uninit_logs := fun hu => absurd (hinit.symm.trans hu) nofun
        adv_instants := by simpa [replyEvent] using h.adv_instants }
  | tsWrite => exact h.set_mem_res (Memory.wf_writeBytes hmem _ _) hok
  | tsRead =>
    refine h.set_mem_res hmem (.inr (.inl ⟨rfl, rfl, fun t ht => ?_⟩))
    cases ht
    exact tsValue_readBytes_lt _ _

/-- Settles O56: taking a command keeps the invariant, and so does each of its two ends. -/
theorem everyStepKeepsTheInvariant : Obligations.EveryStepKeepsTheInvariant := by
  intro s t h hstep
  obtain rfl | ⟨c, rest, u, hu, rfl⟩ := step_cases hstep
  · exact h
  have ha := h.release_accept c rest
  obtain ⟨st, ca, he, rfl⟩ | ⟨i, -, hc⟩ := runDescriptor_eq_next_iff.mp hu
  · exact ha.set_mem_res ha.mem_wf (.inr (.inr ⟨_, commandError_mem he, rfl⟩))
  · exact hc.inv ha

/-- A block just created meets the invariant. -/
theorem State.Inv.of_started {p : Params} {s : State} (h : Started p s) : State.Inv s := by
  obtain ⟨inbox, clockIn, mem, source, hmem, rfl⟩ := h
  exact
    { mem_wf := hmem
      rbuf_wf := ⟨⟨.nil, nofun⟩, nofun⟩
      res_legal := .inl rfl
      tx_shape := nofun
      tx_wrap40 := nofun
      uninit_logs := fun _ => ⟨rfl, rfl⟩
      seq_never := nofun
      adv_instants := rfl
      released := rfl }

/-- What every step keeps holds of every state reached: the induction over a run, once. -/
theorem reaches_induction {P : State → Prop} {s t : State} (h : Reaches s t) (hs : P s)
    (hstep : ∀ u v, P u → step u = .next v → P v) : P t := by
  induction h with
  | start => exact hs
  | step u v _ hv ih => exact hstep u v ih hv

/-- Settles O57: creation meets the invariant and has the parameters, every step keeps both (O56, O52). -/
theorem reachableBlocksMeetTheInvariant : Obligations.ReachableBlocksMeetTheInvariant := by
  intro p s t hs ht
  have hp : s.params = p := by obtain ⟨_, _, _, _, -, rfl⟩ := hs; rfl
  refine reaches_induction (P := fun u => State.Inv u ∧ u.params = p) ht ⟨.of_started hs, hp⟩ ?_
  rintro u v ⟨hu, rfl⟩ hv
  exact ⟨everyStepKeepsTheInvariant u v hu hv, (parametersStayAndLogsOnlyGrow u v hv).1⟩

end Sys2Proof.Machine

/-! # Proofs about caller memory (20_memory.md): what a command writes, what it reads, and what it hands to the sink -/

namespace Sys2Proof.Machine

/-! ### One canonical form per memory (log 5) -/

/-- The first entry of a canonical memory shows: its address does not read as an unlisted one. -/
theorem Memory.read_head_ne_unlisted {c : Host.Cell} {m : Memory} (h : Memory.wf (c :: m)) :
    Memory.read (c :: m) c.1 ≠ Memory.unlisted := by
  simpa [Memory.read] using h.2 c (List.mem_cons_self ..)

/-- The tail of a canonical memory is canonical and lists only addresses above the head's. -/
theorem Memory.wf_tail {c : Host.Cell} {m : Memory} (h : Memory.wf (c :: m)) :
    Memory.wf m ∧ ∀ d ∈ m, c.1 < d.1 :=
  have ⟨hlt, hm⟩ := List.pairwise_cons.mp h.1
  ⟨⟨hm, fun d hd => h.2 d (List.mem_cons_of_mem _ hd)⟩, hlt⟩

/-- Of two canonical memories that read alike, the first does not start below the second. -/
theorem Memory.head_addr_le {c d : Host.Cell} {m m' : Memory} (hc : Memory.wf (c :: m)) (hd : Memory.wf (d :: m'))
    (h : ∀ a, Memory.read (c :: m) a = Memory.read (d :: m') a) : d.1 ≤ c.1 := by
  by_contra hlt
  refine Memory.read_head_ne_unlisted hc ((h c.1).trans (Memory.read_eq_unlisted fun e he => ?_))
  rcases List.mem_cons.mp he with rfl | he
  · omega
  · have := (Memory.wf_tail hd).2 e he
    omega

/-- Two canonical memories with one head that read alike have tails that read alike. -/
theorem Memory.read_tail_congr {c : Host.Cell} {m m' : Memory} (hc : Memory.wf (c :: m)) (hd : Memory.wf (c :: m'))
    (h : ∀ a, Memory.read (c :: m) a = Memory.read (c :: m') a) (a : Nat) : Memory.read m a = Memory.read m' a := by
  by_cases ha : c.1 = a
  · subst ha
    rw [Memory.read_eq_unlisted (Memory.wf_tail hc).2, Memory.read_eq_unlisted (Memory.wf_tail hd).2]
  · simpa only [Memory.read, if_neg ha] using h a

/-- Settles O11, by induction on the entries: the two heads have one address and one byte, and the tails read alike. -/
theorem canonicalMemoriesThatReadAlikeAreEqual : Obligations.CanonicalMemoriesThatReadAlikeAreEqual := by
  intro m
  induction m with
  | nil =>
    intro m' _ hm' h
    cases m' with
    | nil => rfl
    | cons d m' => exact absurd (h d.1).symm (Memory.read_head_ne_unlisted hm')
  | cons c m ih =>
    intro m' hm hm' h
    cases m' with
    | nil => exact absurd (h c.1) (Memory.read_head_ne_unlisted hm)
    | cons d m' =>
      have haddr : c.1 = d.1 :=
        Nat.le_antisymm (Memory.head_addr_le hm' hm fun a => (h a).symm) (Memory.head_addr_le hm hm' h)
      have hbyte : c.2 = d.2 := by simpa [Memory.read, haddr] using h c.1
      obtain rfl : c = d := Prod.ext haddr hbyte
      rw [ih m' (Memory.wf_tail hm).1 (Memory.wf_tail hm').1 (Memory.read_tail_congr hm hm' h)]

/-- Byte `i` of a sequence read from `a`, where there is one, is the byte at `a + i`. -/
@[simp] theorem Memory.readBytes_getElem {m : Memory} {a n i : Nat} (h : i < (Memory.readBytes m a n).length) :
    (Memory.readBytes m a n)[i] = Memory.read m (a + i) :=
  (List.getElem_eq_iff h).mpr (by rw [Memory.readBytes_getElem?, if_pos (by simpa using h)])

/-! ### Memories that read alike outside a range, and inside one -/

theorem sameOutside.trans {m m' m'' : Memory} {a n : Nat} (h : sameOutside m m' a n) (h' : sameOutside m' m'' a n) :
    sameOutside m m'' a n := fun x hx => (h' x hx).trans (h x hx)

/-- A frame may be widened: from the first `k` bytes of a range to the whole range. -/
theorem sameOutside.widen {m m' : Memory} {a k n : Nat} (h : sameOutside m m' a k) (hk : k ≤ n) :
    sameOutside m m' a n := fun x hx => h x (by omega)

/-- A byte sequence written inside a range changes nothing outside it. -/
theorem sameOutside_writeBytes (m : Memory) {a n b : Nat} {bytes : List Byte} (hlo : a ≤ b)
    (hhi : b + bytes.length ≤ a + n) : sameOutside m (Memory.writeBytes m b bytes) a n :=
  fun _ hx => Memory.read_writeBytes_outside m (by omega)

/-- One byte sequence written into both memories keeps them alike on a range. -/
theorem sameInside.writeBytes {m m' : Memory} {a n : Nat} (h : sameInside m m' a n) (b : Nat) (bytes : List Byte) :
    sameInside (Memory.writeBytes m b bytes) (Memory.writeBytes m' b bytes) a n := by
  intro x hx
  rw [Memory.read_writeBytes, Memory.read_writeBytes, h x hx]

/-- A byte sequence inside a range on which two memories are alike reads the same from both. -/
theorem sameInside.readBytes_eq {m m' : Memory} {a n b k : Nat} (h : sameInside m m' a n) (hlo : a ≤ b)
    (hhi : b + k ≤ a + n) : Memory.readBytes m' b k = Memory.readBytes m b k :=
  Memory.readBytes_congr fun i hi => h (b + i) (by omega)

/-- Two memories alike on a range stay so when its first `k` bytes become the same and nothing else changes. -/
theorem sameInside.of_written_start {m m' u u' : Memory} {a n k : Nat} (h : sameInside m m' a n)
    (hbytes : Memory.readBytes u a k = Memory.readBytes u' a k) (hu : sameOutside m u a k)
    (hu' : sameOutside m' u' a k) : sameInside u u' a n := by
  intro x hx
  by_cases hk : a ≤ x ∧ x < a + k
  · obtain ⟨i, rfl⟩ := Nat.exists_eq_add_of_le hk.1
    have hi : i < k := by omega
    simpa [hi] using (congrArg (·[i]?) hbytes).symm
  · rw [hu x hk, hu' x hk, h x hx]

/-- Settles O10: the move writes, at its destination, the bytes read from its source before. -/
theorem memMoveCopiesThroughATemporary : Obligations.MemMoveCopiesThroughATemporary := by
  intro r m d s n hd hs
  refine ⟨_, memMove_ok m hd hs, fun i hi => ?_, sameOutside_writeBytes m le_rfl (by simp)⟩
  rw [Memory.read_writeBytes_inside m (by simpa using hi), Memory.readBytes_getElem]

/-! ### What the frame builders leave, said of the memory they answer -/

theorem encapBody_frame {r : Region} {n : Nat} {m m' : Memory} {p s d : Half} {q : Byte} (hcap : n + 11 ≤ r.cap)
    (hm : encapBody r m p s d q n = .ok m') :
    Memory.readBytes m' r.base (n + 11) = frameBytes q p d s (Memory.readBytes m r.base n) ∧
      sameOutside m m' r.base (n + 11) := by
  obtain ⟨m'', he, hframe, hout, -⟩ := encapBody_spec m p s d q hcap
  cases he.symm.trans hm
  exact ⟨hframe, hout⟩

theorem buildAdv_frame {r : Region} {t : Tick} {hr : Handler} {m m' : Memory} (hcap : 16 ≤ r.cap)
    (hm : buildAdv r t hr m = .ok m') :
    Memory.readBytes m' r.base 16 = advFrame hr.seq hr.panId hr.addr t ∧ sameOutside m m' r.base 16 := by
  obtain ⟨m'', he, hframe, hout, -⟩ := buildAdv_spec t hr m hcap
  cases he.symm.trans hm
  exact ⟨hframe, hout⟩

theorem buildReply_frame {rb rb' : Memory} {p d a : Half} {tAdv rx tReply : Tick}
    (hrb : buildReply rb p d a tAdv rx tReply = .ok rb') :
    Memory.readBytes rb' 0 26 = replyFrame p d a tAdv rx tReply := by
  obtain ⟨rb'', he, hframe, -⟩ := buildReply_spec rb p d a tAdv rx tReply
  cases he.symm.trans hrb
  exact hframe

/-! ### The range discipline for writes (R51) -/

theorem payloadMoved_sameOutside {r : Region} {len : Nat} (m : Memory) (hcap : len ≤ r.cap) :
    sameOutside m (payloadMoved r len m) r.base r.cap :=
  sameOutside_writeBytes m le_rfl (by simp; omega)

theorem bufferDrawn_sameOutside {r : Region} {len : Nat} (s : State) (hcap : len ≤ r.cap) :
    sameOutside s.mem (bufferDrawn r len s) r.base r.cap :=
  (payloadMoved_sameOutside s.mem hcap).trans (sameOutside_writeBytes _ le_rfl (by simp))

/-- All that a completion does to caller memory: nothing, or it writes inside the attached buffer. -/
theorem Completes.mem_cases {i : Instr} {s t : State} (h : Completes s i t) :
    t.mem = s.mem ∨ ∃ a, s.att = some a ∧ sameOutside s.mem t.mem a.region.base a.region.cap := by
  cases h with
  | init => exact .inl rfl
  | encap hatt hcap hm => exact .inr ⟨_, hatt, (encapBody_frame hcap hm).2.widen hcap⟩
  | decap hatt hcap hframe hf =>
    have hlen := le_of_frameError_none hframe
    exact .inr ⟨_, hatt, (payloadMoved_sameOutside s.mem hcap).trans
      (sameOutside_writeBytes _ (by omega) (by simp; omega))⟩
  | prepAdv hatt hinit hcap hm => exact .inr ⟨_, hatt, (buildAdv_frame hcap hm).2.widen hcap⟩
  | sendAdv hatt hinit hcap hsched hm => exact .inr ⟨_, hatt, (buildAdv_frame hcap hm).2.widen hcap⟩
  | drop hatt hinit hcap => exact .inr ⟨_, hatt, bufferDrawn_sameOutside s hcap⟩
  | reply hatt hinit hcap => exact .inr ⟨_, hatt, bufferDrawn_sameOutside s hcap⟩
  | tsWrite hatt hcap => exact .inr ⟨_, hatt, sameOutside_writeBytes _ (by omega) (by simp; omega)⟩
  | tsRead => exact .inl rfl

/-- All that a command does to caller memory, whether it raises or completes. -/
theorem exec_mem_cases {i : Instr} {s t : State} (h : exec i s = .next t) :
    t.mem = s.mem ∨ ∃ a, s.att = some a ∧ sameOutside s.mem t.mem a.region.base a.region.cap := by
  obtain ⟨st, c, -, rfl⟩ | hc := exec_eq_next_iff.mp h
  · exact .inl rfl
  · exact hc.mem_cases

/-- Settles O12: `exec_mem_cases` for the buffer; INIT and TS_READ write no memory in either outcome. -/
theorem commandsWriteOnlyTheirBuffer : Obligations.CommandsWriteOnlyTheirBuffer := by
  intro i s t h
  refine ⟨fun a hatt => ?_, fun hatt => ?_, ?_, ?_⟩
  · obtain hmem | ⟨b, hb, hout⟩ := exec_mem_cases h
    · exact fun x _ => by rw [hmem]
    · cases hatt.symm.trans hb
      exact hout
  · obtain hmem | ⟨b, hb, -⟩ := exec_mem_cases h
    · exact hmem
    · cases hatt.symm.trans hb
  · rintro p a rfl
    cases h
    rfl
  · rintro o rfl
    obtain ⟨st, c, -, rfl⟩ | hc := exec_eq_next_iff.mp h
    · rfl
    · cases hc
      rfl

/-! ### The range discipline for reads (R51)

Two memories that read alike inside the buffer show a command the same conditions, fields and payloads. -/

theorem sameInside.headerField_eq {m m' : Memory} {a n o : Nat} (h : sameInside m m' a n) (ho : o + 2 ≤ n) :
    headerField m' a o = headerField m a o := by
  rw [headerField, headerField, h (a + o) (by omega), h (a + o + 1) (by omega)]

theorem sameInside.headerOf_eq {m m' : Memory} {a n len : Nat} (h : sameInside m m' a n) (hn : 11 ≤ n) :
    headerOf m' a len = headerOf m a len := by
  have hpan := h.headerField_eq (o := 3) (by omega)
  have hdst := h.headerField_eq (o := 5) (by omega)
  have hsrc := h.headerField_eq (o := 7) (by omega)
  simp only [headerField, Nat.add_assoc, Nat.reduceAdd] at hpan hdst hsrc
  simp only [headerOf, h (a + 2) (by omega), hpan, hdst, hsrc]

theorem sameInside.frameError_eq {m m' : Memory} {r : Region} {len : Nat} (h : sameInside m m' r.base r.cap)
    (hcap : len ≤ r.cap) : frameError r len m' = frameError r len m := by
  unfold frameError
  split
  · rfl
  · rw [h r.base (by omega), h (r.base + 1) (by omega)]

theorem sameInside.passesFilters_iff {m m' : Memory} {a n len : Nat} {panId : Half} (h : sameInside m m' a n)
    (hn : 11 ≤ n) : passesFilters m' a len panId ↔ passesFilters m a len panId := by
  rw [passesFilters, passesFilters, h.headerField_eq (by omega), h.headerField_eq (by omega)]

theorem sameInside.rangeError_eq {m m' : Memory} {r : Region} (h : sameInside m m' r.base r.cap) (i : Instr) :
    rangeError r m' i = rangeError r m i := by
  cases i with
  | decap len | processRx len =>
    simp only [rangeError]
    split
    · rfl
    · exact h.frameError_eq (by omega)
  | _ => rfl

/-- Which error a command reports depends on no byte outside its buffer. -/
theorem sameInside.firstError_eq {s : State} {a : Attachment} {m : Memory}
    (h : sameInside s.mem m a.region.base a.region.cap) (hatt : s.att = some a) (i : Instr) :
    firstError i { s with mem := m } = firstError i s := by
  cases i with
  | init => rfl
  | _ => simp only [firstError, hatt, h.rangeError_eq]

theorem encapBody_sameInside {r : Region} {n : Nat} {m m' u : Memory} {p s d : Half} {q : Byte}
    (h : sameInside m m' r.base r.cap) (hcap : n + 11 ≤ r.cap) (hu : encapBody r m p s d q n = .ok u) :
    ∃ u', encapBody r m' p s d q n = .ok u' ∧ sameInside u u' r.base r.cap := by
  obtain ⟨u', hu', hframe', hout', -⟩ := encapBody_spec m' p s d q hcap
  obtain ⟨hframe, hout⟩ := encapBody_frame hcap hu
  rw [h.readBytes_eq le_rfl (by omega), ← hframe] at hframe'
  exact ⟨u', hu', h.of_written_start hframe'.symm hout hout'⟩

theorem buildAdv_sameInside {r : Region} {t : Tick} {hr : Handler} {m m' u : Memory}
    (h : sameInside m m' r.base r.cap) (hcap : 16 ≤ r.cap) (hu : buildAdv r t hr m = .ok u) :
    ∃ u', buildAdv r t hr m' = .ok u' ∧ sameInside u u' r.base r.cap := by
  obtain ⟨u', hu', hframe', hout', -⟩ := buildAdv_spec t hr m' hcap
  obtain ⟨hframe, hout⟩ := buildAdv_frame hcap hu
  exact ⟨u', hu', h.of_written_start (hframe.trans hframe'.symm) hout hout'⟩

theorem payloadMoved_sameInside {r : Region} {len : Nat} {m m' : Memory} (h : sameInside m m' r.base r.cap)
    (hlen : 11 ≤ len) (hcap : len ≤ r.cap) :
    sameInside (payloadMoved r len m) (payloadMoved r len m') r.base r.cap := by
  rw [payloadMoved, payloadMoved, h.readBytes_eq (by omega) (by omega)]
  exact h.writeBytes _ _

/-- A command that completes does the same to every memory that reads alike inside its buffer. -/
theorem Completes.of_sameInside {i : Instr} {s t : State} {a : Attachment} {m : Memory} (hc : Completes s i t)
    (ha : s.att = some a) (h : sameInside s.mem m a.region.base a.region.cap) :
    ∃ m', Completes { s with mem := m } i { t with mem := m' } ∧
      sameInside t.mem m' a.region.base a.region.cap := by
  cases hc with
  | init p q => exact ⟨m, .init p q, h⟩
  | encap hatt hcap hm =>
    cases ha.symm.trans hatt
    obtain ⟨m', hm', hin⟩ := encapBody_sameInside h hcap hm
    exact ⟨m', .encap hatt hcap hm', hin⟩
  | decap hatt hcap hframe hf =>
    cases ha.symm.trans hatt
    have hlen := le_of_frameError_none hframe
    exact ⟨_, .decap hatt hcap ((h.frameError_eq hcap).trans hframe)
      (hf.trans (h.headerOf_eq (by omega)).symm), (payloadMoved_sameInside h hlen hcap).writeBytes _ _⟩
  | prepAdv hatt hinit hcap hm =>
    cases ha.symm.trans hatt
    obtain ⟨m', hm', hin⟩ := buildAdv_sameInside h hcap hm
    exact ⟨m', .prepAdv hatt hinit hcap hm', hin⟩
  | sendAdv hatt hinit hcap hsched hm =>
    cases ha.symm.trans hatt
    obtain ⟨m', hm', hin⟩ := buildAdv_sameInside h hcap hm
    exact ⟨m', .sendAdv hatt hinit hcap hsched hm', hin⟩
  | drop hatt hinit hcap hframe hfilter =>
    cases ha.symm.trans hatt
    have hlen := le_of_frameError_none hframe
    exact ⟨_, .drop hatt hinit hcap ((h.frameError_eq hcap).trans hframe)
      (mt (h.passesFilters_iff (by omega)).mp hfilter), (payloadMoved_sameInside h hlen hcap).writeBytes _ _⟩
  | reply hatt hinit hcap hframe hfilter hsrc hadv hreply hrb =>
    cases ha.symm.trans hatt
    have hlen := le_of_frameError_none hframe
    have hpay := hfilter.2.2
    exact ⟨_, .reply hatt hinit hcap ((h.frameError_eq hcap).trans hframe)
      ((h.passesFilters_iff (by omega)).mpr hfilter) (hsrc.trans (h.headerField_eq (by omega)).symm)
      (hadv.trans (congrArg tsValue (h.readBytes_eq (by omega) (by omega)).symm)) hreply hrb,
      (payloadMoved_sameInside h hlen hcap).writeBytes _ _⟩
  | tsWrite hatt hcap => exact ⟨_, .tsWrite hatt hcap, h.writeBytes _ _⟩
  | tsRead hatt hcap =>
    cases ha.symm.trans hatt
    refine ⟨m, ?_, h⟩
    rw [← h.readBytes_eq (by omega) (by omega)]
    exact .tsRead hatt hcap

/-- Settles O13: an error is the same error (`firstError_eq`), a completion the same completion (`of_sameInside`). -/
theorem commandsReadOnlyTheirBuffer : Obligations.CommandsReadOnlyTheirBuffer := by
  intro i s t a m hatt h hexec
  obtain ⟨st, c, he, rfl⟩ | hc := exec_eq_next_iff.mp hexec
  · exact ⟨m, exec_of_firstError ((h.firstError_eq hatt i).trans he), h⟩
  · obtain ⟨m', hc', hin⟩ := hc.of_sameInside hatt h
    exact ⟨m', hc'.exec_eq, hin⟩

/-! ### The transmit event's copy (R62) -/

/-- The trailer ends a frame (R77). -/
theorem frameBytes_drop_trailer (seq : Byte) (p d s : Half) (payload : List Byte) :
    (frameBytes seq p d s payload).drop (9 + payload.length) = [0x00, 0x00] := by
  rw [frameBytes_eq, ← List.append_assoc]
  exact List.drop_left' (by simp; omega)

theorem advFrame_drop_trailer (seq : Byte) (p a : Half) (t : Tick) : (advFrame seq p a t).drop 14 = [0x00, 0x00] :=
  frameBytes_drop_trailer seq p _ a (tsBytes t)

theorem replyFrame_drop_trailer (p d a : Half) (t u v : Tick) : (replyFrame p d a t u v).drop 24 = [0x00, 0x00] :=
  frameBytes_drop_trailer 0x01 p d a (tsBytes t ++ tsBytes u ++ tsBytes v)

/-- A command that adds a transmit event met no error: an error leaves `TXLOG` alone (R168). -/
theorem completes_of_transmit {i : Instr} {s t : State} {e : TxEvent} (h : exec i s = .next t)
    (htx : t.txLog = s.txLog ++ [e]) : Completes s i t := by
  obtain ⟨st, c, -, rfl⟩ | hc := exec_eq_next_iff.mp h
  · simp at htx
  · exact hc

/-- Settles O39: both events hold the frame that was built, and that frame stands in the buffer or in `RBUF`. -/
theorem transmitSnapshotsTheFinishedFrame : Obligations.TransmitSnapshotsTheFinishedFrame := by
  constructor
  · intro s t a e ha hexec htx
    cases completes_of_transmit hexec htx with
    | sendAdv hatt hinit hcap hsched hm =>
      cases ha.symm.trans hatt
      obtain rfl := List.singleton_inj.mp (List.append_cancel_left htx)
      exact ⟨(buildAdv_frame hcap hm).1.symm, advFrame_drop_trailer ..⟩
  · intro len rx s t e hexec htx
    cases completes_of_transmit hexec htx with
    | drop => simp at htx
    | reply hatt hinit hcap hframe hfilter hsrc hadv hreply hrb =>
      obtain rfl := List.singleton_inj.mp (List.append_cancel_left htx)
      exact ⟨(buildReply_frame hrb).symm, replyFrame_drop_trailer ..⟩

end Sys2Proof.Machine

/-! # Proofs about encodings (30_encoding.md): descriptors, assembler lines, and what a reply decodes to -/

namespace Sys2Proof

/-! ### An operand's bytes stand at its place in the descriptor (R71, R73) -/

/-- The bytes before an operand and the operand's own bytes are the bytes up to the operand's end. -/
theorem take_append_leBytes_operand {w k n : Nat} {opc : Byte} {ds : List Byte} (hd : k + n ≤ ds.length)
    (hw : 256 ^ n = 2 ^ w) :
    ds.take k ++ leBytes n (operand w (opc :: ds) (k + 1) n).toNat = ds.take (k + n) := by
  rw [leBytes_operand _ (by simp only [List.length_cons]; omega) hw, List.drop_succ_cons, List.take_add]

/-- The first operand's bytes come right after the opcode byte. -/
theorem leBytes_operand_one {w n : Nat} {opc : Byte} {ds : List Byte} (hd : n ≤ ds.length) (hw : 256 ^ n = 2 ^ w) :
    leBytes n (operand w (opc :: ds) 1 n).toNat = ds.take n := by
  simpa using take_append_leBytes_operand (k := 0) (opc := opc) (by simpa using hd) hw

theorem ofLength_eq_ok {d : List Byte} {L : Nat} {i j : Instr} :
    ofLength d L i = .ok j ↔ d.length = L ∧ i = j := by
  unfold ofLength
  split <;> simp [*]

/-! ### The decoder, row by row of the opcode map (R72) -/

theorem opcodeRow_eq_some {d : List Byte} {r : OpcodeRow} (h : opcodeRow d = some r) :
    r ∈ opcodeMap ∧ ∃ ds, d = r.opcode :: ds :=
  ⟨List.mem_of_find?_eq_some h, List.head?_eq_some_iff.mp (by simpa using List.find?_some h)⟩

/-- A descriptor whose opcode has a row is held to that row's length; at that length the command read from it needs a
buffer where the row says so, and encodes to the descriptor itself. -/
theorem decode_of_opcodeRow {d : List Byte} {r : OpcodeRow} (h : opcodeRow d = some r) :
    ∃ i, decode d = ofLength d r.length i ∧ i.needsBuffer = r.buffer ∧ (d.length = r.length → encode i = d) := by
  obtain ⟨hr, ds, rfl⟩ := opcodeRow_eq_some h
  simp only [opcodeMap, List.mem_cons, List.not_mem_nil, or_false] at hr
  obtain rfl | rfl | rfl | rfl | rfl | rfl | rfl | rfl := hr
  all_goals
    refine ⟨_, rfl, rfl, fun hlen => ?_⟩
    simp only [List.length_cons, Nat.reduceEqDiff, List.length_eq_zero_iff] at hlen
    simp [encode, leBytes_operand_one, take_append_leBytes_operand, hlen]

/-- A descriptor with an opcode byte that has no row is refused for it. -/
theorem decode_of_opcodeRow_none {d : List Byte} (hd : d ≠ []) (h : opcodeRow d = none) :
    decode d = .error .badOpcode := by
  obtain ⟨opc, ds, rfl⟩ := List.exists_cons_of_ne_nil hd
  have hopc : opc.toNat = 0 ∨ 8 < opc.toNat := by
    simp only [opcodeRow, opcodeMap, List.find?_eq_none, List.forall_mem_cons, List.head?_cons, beq_iff_eq,
      Option.some.injEq] at h
    bv_omega
  simp only [decode]
  split
  case h_9 => rfl
  all_goals omega

/-- All that the decoder accepts: a descriptor with a row and of the row's length, as the command that encodes to it. -/
theorem opcodeRow_of_decode {d : List Byte} {i : Instr} (h : decode d = .ok i) :
    ∃ r, opcodeRow d = some r ∧ d.length = r.length ∧ i.needsBuffer = r.buffer ∧ encode i = d := by
  cases hrow : opcodeRow d with
  | none =>
    cases d with
    | nil => cases h
    | cons opc ds => cases h.symm.trans (decode_of_opcodeRow_none (List.cons_ne_nil opc ds) hrow)
  | some r =>
    obtain ⟨j, hdec, hbuf, henc⟩ := decode_of_opcodeRow hrow
    obtain ⟨hlen, rfl⟩ := ofLength_eq_ok.mp (hdec.symm.trans h)
    exact ⟨r, rfl, hlen, hbuf, henc hlen⟩

/-- The encoder's descriptor of any command decodes to it (`RoundTrip`, one lemma per command). -/
theorem decode_encode (i : Instr) : decode (encode i) = .ok i := by
  cases i with
  | init p a => exact Laws.RoundTrip.init p a
  | encap p s d q n => exact Laws.RoundTrip.encap p s d q n
  | decap n => exact Laws.RoundTrip.decap n
  | prepAdv t => exact Laws.RoundTrip.prepAdv t
  | sendAdv => exact Laws.RoundTrip.sendAdv
  | processRx n t => exact Laws.RoundTrip.processRx n t
  | tsWrite o t => exact Laws.RoundTrip.tsWrite o t
  | tsRead o => exact Laws.RoundTrip.tsRead o

/-- Settles O2: an accepted descriptor is its command's encoding (`opcodeRow_of_decode`), and encodings decode back. -/
theorem decodeAndEncodeAgree : Obligations.DecodeAndEncodeAgree := by
  intro d i
  constructor
  · intro h
    obtain ⟨r, -, -, -, henc⟩ := opcodeRow_of_decode h
    exact henc.symm
  · rintro rfl
    exact decode_encode i

/-- Settles O1: each descriptor is the encoding of its command, so it decodes to it. -/
theorem decodeReadsWordsOfTheMap : Obligations.DecodeReadsWordsOfTheMap :=
  have decodes {d : List Byte} {i : Instr} : d = encode i → decode d = .ok i := (decodeAndEncodeAgree d i).mpr
  ⟨decodes rfl, decodes rfl, decodes rfl, decodes rfl, decodes rfl, decodes rfl, decodes rfl, decodes rfl⟩

/-! ### Legal and illegal descriptors (R74) -/

theorem opcodeLegal_eq_false_iff {d : List Byte} : opcodeLegal d = false ↔ opcodeRow d = none := by
  simp [opcodeLegal]

theorem descriptorLegal_iff {d : List Byte} :
    descriptorLegal d = true ↔ ∃ r, opcodeRow d = some r ∧ d.length = r.length := by
  cases hrow : opcodeRow d <;> simp [descriptorLegal, opcodeLegal, lengthLegal, hrow]

theorem exists_decode_of_legal {d : List Byte} (h : descriptorLegal d = true) : ∃ i, decode d = .ok i := by
  obtain ⟨r, hrow, hlen⟩ := descriptorLegal_iff.mp h
  obtain ⟨i, hdec, -⟩ := decode_of_opcodeRow hrow
  exact ⟨i, hdec.trans (ofLength_eq_ok.mpr ⟨hlen, rfl⟩)⟩

/-- The length is tested only under a legal opcode (R167 item 1). -/
theorem decode_badLength {d : List Byte} (ho : opcodeLegal d = true) (hl : lengthLegal d = false) :
    decode d = .error .badLength := by
  obtain ⟨r, hrow⟩ := Option.isSome_iff_exists.mp ho
  obtain ⟨i, hdec, -⟩ := decode_of_opcodeRow hrow
  have hlen : d.length ≠ r.length := by simpa [lengthLegal, hrow] using hl
  rw [hdec, ofLength, if_neg hlen]

/-- A legal descriptor without the buffer that its row asks for is that of a command that needs one (R74 case 3). -/
theorem decode_of_bufferLegal_false {d : List Byte} {attached : Bool} (hd : descriptorLegal d = true)
    (hb : bufferLegal d attached = false) :
    attached = false ∧ ∃ i, decode d = .ok i ∧ i.needsBuffer = true := by
  obtain ⟨i, hi⟩ := exists_decode_of_legal hd
  obtain ⟨r, hrow, -, hneeds, -⟩ := opcodeRow_of_decode hi
  obtain ⟨hbuf, hatt⟩ : r.buffer = true ∧ attached = false := by simpa [bufferLegal, hrow] using hb
  exact ⟨hatt, i, hi, hneeds.trans hbuf⟩

/-- Settles O3, from the row of the descriptor's opcode: none, one of another length, or one of its length. -/
theorem decoderFollowsTheOpcodeMap : Obligations.DecoderFollowsTheOpcodeMap := fun _ =>
  ⟨exists_decode_of_legal, fun hd ho => decode_of_opcodeRow_none hd (opcodeLegal_eq_false_iff.mp ho), decode_badLength⟩

end Sys2Proof

namespace Sys2Proof.Machine

/-! ### Illegal descriptors raise ILLEGAL_COMMAND (R74, R167 item 1) -/

/-- A delivered command that reports an error raises it, and returns with nothing else done (R168, R169). -/
theorem step_of_commandError {s : State} {c : Command} {rest : List Delivery} {st : Status} {ca : Cause}
    (h : s.inbox = .command c :: rest) (he : commandError c (accept c rest s) = some (st, ca)) :
    step s = .next { accept c rest s with res := errorResult st ca, att := none } := by
  rw [step_of_command h, runDescriptor_eq_next_iff.mpr (.inl ⟨st, ca, he, rfl⟩)]
  rfl

theorem commandError_badOpcode {c : Command} {s : State} (h : decode c.desc = .error .badOpcode) :
    commandError c s = some (.illegalCommand, .badOpcode) := by
  simp only [commandError, h]

theorem commandError_badLength {c : Command} {s : State} (h : decode c.desc = .error .badLength) :
    commandError c s = some (.illegalCommand, .badLength) := by
  simp only [commandError, h]

theorem commandError_noBuffer {c : Command} {s : State} {i : Instr} (h : decode c.desc = .ok i)
    (hi : i.needsBuffer = true) (hatt : s.att = none) :
    commandError c s = some (.illegalCommand, .noBuffer) := by
  cases i with
  | init => cases hi
  | _ => simp only [commandError, h, firstError, hatt]

/-- Settles O6: the first three clauses are the error the command reports (`step_of_commandError`), the last two are the
agreement of decoder and encoder. -/
theorem illegalDescriptorsRaiseIllegalCommand : Obligations.IllegalDescriptorsRaiseIllegalCommand := by
  intro s c rest h hd
  refine ⟨fun ho => ?_, fun ho hl => ?_, fun hleg hb => ?_, fun p a henc => ?_, fun hleg => ?_⟩
  · exact step_of_commandError h
      (commandError_badOpcode (decode_of_opcodeRow_none hd (opcodeLegal_eq_false_iff.mp ho)))
  · exact step_of_commandError h (commandError_badLength (decode_badLength ho hl))
  · obtain ⟨hatt, i, hi, hneeds⟩ := decode_of_bufferLegal_false hleg hb
    exact step_of_commandError h (commandError_noBuffer hi hneeds (by simpa using hatt))
  · have hdec := (decodeAndEncodeAgree c.desc _).mpr henc
    rw [step_of_command h, runDescriptor_eq_next_iff.mpr (.inr ⟨_, hdec, .init p a⟩)]
    rfl
  · have hdesc : descriptorLegal c.desc = true := (Bool.and_eq_true_iff.mp hleg).1
    obtain ⟨i, hi⟩ := exists_decode_of_legal hdesc
    exact ⟨i, hi, fun j hj => Except.ok.inj (hj.symm.trans hi)⟩

/-- Settles O7: the empty descriptor decodes to BAD_LENGTH (log 9), and that is the error the step raises. -/
theorem emptyDescriptorRaisesBadLength : Obligations.EmptyDescriptorRaisesBadLength := by
  intro s c rest h hd
  have hdec : decode c.desc = .error .badLength := by rw [hd]; rfl
  exact step_of_commandError h (commandError_badLength hdec)

/-! ### Assembler lines (R75) -/

/-- An operand written with a name gives that name its value. -/
@[simp] theorem namedValue_same {w : Nat} (name : List Char) (v : BitVec w) (args : List AsmArg) :
    namedValue w name (.value name v.toNat :: args) = some v := by
  simp [namedValue, v.isLt]

/-- An operand of another name is passed over. -/
@[simp] theorem namedValue_other {w v : Nat} {name other : List Char} (h : other ≠ name) (args : List AsmArg) :
    namedValue w name (.value other v :: args) = namedValue w name args := if_neg h

/-- A line with a buffer's name in front assembles where the command takes one (R72). -/
theorem asmCommand_buffer {mnemonic buf : List Char} {vs : List AsmArg} {i : Instr}
    (h : asmInstr mnemonic vs = some i) (hi : i.needsBuffer = true) :
    asmCommand mnemonic (.buffer buf :: vs) = some { instr := i, buffer := some buf } := by
  simp only [asmCommand, h, hi, if_true]

/-- Settles O4: of each mnemonic `asmInstr` takes one arm, and `namedValue` finds every operand of it by name. -/
theorem assemblerPutsOperandsByName : Obligations.AssemblerPutsOperandsByName := by
  intro pan addr src dst len off seq ts buf
  refine ⟨?_, asmCommand_buffer ?_ rfl, asmCommand_buffer ?_ rfl, asmCommand_buffer ?_ rfl, asmCommand_buffer rfl rfl,
    asmCommand_buffer ?_ rfl, asmCommand_buffer ?_ rfl, asmCommand_buffer ?_ rfl⟩
  · simp [asmCommand, asmInstr, Instr.needsBuffer]
  all_goals simp [asmInstr]

end Sys2Proof.Machine

namespace Sys2Proof.Machine

/-! ### What a frame in the buffer says of DECAP and TS_READ (R77, R86, R106, R122) -/

/-- Part of a byte sequence in memory: `n` bytes from its byte `k` on. -/
theorem Memory.readBytes_slice {m : Memory} {a k n l : Nat} (h : k + n ≤ l) :
    Memory.readBytes m (a + k) n = ((Memory.readBytes m a l).drop k).take n := by
  apply List.ext_getElem?
  intro i
  simp only [List.getElem?_take, List.getElem?_drop, Memory.readBytes_getElem?, Nat.add_assoc]
  split
  · rw [if_pos (by omega)]
  · rfl

/-- The bytes after a write that lies above them are those before it. -/
theorem Memory.readBytes_writeBytes_above {m : Memory} {a b n : Nat} (s : List Byte) (h : a + n ≤ b) :
    Memory.readBytes (Memory.writeBytes m b s) a n = Memory.readBytes m a n :=
  Memory.readBytes_congr fun _ _ => Memory.read_writeBytes_outside m (by omega)

/-- Decoding an encoded timestamp gives bits 39:0 (R121, R122, R125). -/
theorem tsValue_tsBytes_toNat (t : Tick) : (tsValue (tsBytes t)).toNat = t.toNat % 2 ^ 40 := by
  rw [tsBytes, tsValue_toNat]
  simp only [BitVec.extractLsb'_toNat, Nat.shiftRight_eq_div_pow]
  omega

/-- The payload stands between a frame's header and its trailer (R77). -/
theorem frameBytes_payload (seq : Byte) (p d s : Half) (payload : List Byte) :
    ((frameBytes seq p d s payload).drop 9).take payload.length = payload := by
  rw [frameBytes_eq]
  exact List.take_left

section
variable {m : Memory} {seq : Byte} {p d s : Half} {payload : List Byte}

/-- The header of a frame in memory (R77). -/
theorem readBytes_header {base : Nat}
    (h : Memory.readBytes m base (payload.length + 11) = frameBytes seq p d s payload) :
    Memory.readBytes m base 9 =
      [0x41, 0x88, seq, p.extractLsb' 0 8, p.extractLsb' 8 8, d.extractLsb' 0 8, d.extractLsb' 8 8,
        s.extractLsb' 0 8, s.extractLsb' 8 8] := by
  have hslice := Memory.readBytes_slice (m := m) (a := base) (k := 0) (n := 9) (l := payload.length + 11) (by omega)
  rw [h, frameBytes_eq] at hslice
  exact hslice

/-- The fields of a frame in memory, read back (R106). -/
theorem headerOf_frameBytes {base : Nat}
    (h : Memory.readBytes m base (payload.length + 11) = frameBytes seq p d s payload) :
    headerOf m base (payload.length + 11) =
      { seq := seq, panId := p, dst := d, src := s, payloadLen := payload.length } := by
  have hhead := readBytes_header h
  simp only [Memory.readBytes, List.cons.injEq, and_true, Nat.add_assoc, Nat.reduceAdd] at hhead
  obtain ⟨-, -, hseq, hp0, hp1, hd0, hd1, hs0, hs1⟩ := hhead
  simp only [headerOf, hseq, hp0, hp1, hd0, hd1, hs0, hs1, le16_le16Bytes, Nat.add_sub_cancel]

/-- A frame in memory meets no condition of R107 on its bytes. -/
theorem frameError_frameBytes {r : Region}
    (h : Memory.readBytes m r.base (payload.length + 11) = frameBytes seq p d s payload) :
    frameError r (payload.length + 11) m = none := by
  have hhead := readBytes_header h
  simp only [Memory.readBytes, List.cons.injEq] at hhead
  obtain ⟨hfc0, hfc1, -⟩ := hhead
  simp [frameError, hfc0, hfc1]

end

/-- DECAP of a frame in the buffer: its fields go to `RES` and its payload to the buffer's start (R106). -/
theorem exec_decap_frameBytes {len : Half} {s : State} {a : Attachment} {seq : Byte} {p d src : Half}
    {payload : List Byte} (hatt : s.att = some a) (hlen : len.toNat = payload.length + 11)
    (hcap : len.toNat ≤ a.region.cap)
    (h : Memory.readBytes s.mem a.region.base (payload.length + 11) = frameBytes seq p d src payload) :
    ∃ t, exec (.decap len) s = .next t ∧ t.att = some a ∧
      t.res = { okResult with
        panId := some p, src := some src, dst := some d, seq := some seq
        payloadLen := some (BitVec.ofNat 16 payload.length) } ∧
      Memory.readBytes t.mem a.region.base payload.length = payload := by
  have hframe : frameError a.region len.toNat s.mem = none := by rw [hlen]; exact frameError_frameBytes h
  have hhead := headerOf_frameBytes h
  rw [← hlen] at hhead
  refine ⟨_, (Completes.decap hatt hcap hframe hhead.symm).exec_eq, hatt, rfl, ?_⟩
  have hn : len.toNat - 11 = payload.length := by omega
  rw [Memory.readBytes_writeBytes_above _ (by omega), readBytes_payloadMoved _ hn,
    Memory.readBytes_slice (l := payload.length + 11) (by omega), h, frameBytes_payload]

/-- TS_READ of a field that holds an encoded timestamp, and nothing but `RES` changes (R124). -/
theorem exec_tsRead_tsBytes {o : Half} {s : State} {a : Attachment} {ts : Tick} (hatt : s.att = some a)
    (hcap : o.toNat + 5 ≤ a.region.cap)
    (h : Memory.readBytes s.mem (a.region.base + o.toNat) 5 = tsBytes ts) :
    exec (.tsRead o) s = .next { s with res := { okResult with ts := some (tsValue (tsBytes ts)) } } := by
  rw [← h]
  exact (Completes.tsRead hatt hcap).exec_eq

/-- Settles O43: DECAP leaves the three timestamps of the reply at offsets 0, 5 and 10, where TS_READ finds them. -/
theorem replyDecodesToItsThreeTimestamps : Obligations.ReplyDecodesToItsThreeTimestamps := by
  intro s a p d addr tAdv rx tReply hatt hcap h
  obtain ⟨t, hexec, hatt', hres, hmem⟩ :=
    exec_decap_frameBytes (len := 26) (payload := tsBytes tAdv ++ tsBytes rx ++ tsBytes tReply) hatt rfl hcap h
  have hfield (k : Nat) (hk : k + 5 ≤ 15) : Memory.readBytes t.mem (a.region.base + k) 5 =
      ((tsBytes tAdv ++ tsBytes rx ++ tsBytes tReply).drop k).take 5 := by
    rw [Memory.readBytes_slice hk]
    exact congrArg (fun payload => (payload.drop k).take 5) hmem
  have hin {o : Half} (ho : o.toNat + 5 ≤ 26) : o.toNat + 5 ≤ a.region.cap := ho.trans hcap
  exact ⟨t, _, _, _, _, _, _, hexec, hres,
    exec_tsRead_tsBytes hatt' (hin (by decide)) (hfield 0 (by decide)), rfl, tsValue_tsBytes_toNat tAdv,
    exec_tsRead_tsBytes hatt' (hin (by decide)) (hfield 5 (by decide)), rfl, tsValue_tsBytes_toNat rx,
    exec_tsRead_tsBytes hatt' (hin (by decide)) (hfield 10 (by decide)), rfl, tsValue_tsBytes_toNat tReply⟩

end Sys2Proof.Machine

/-! # Proofs about the frame codec (40_frame_codec.md): what ENCAP builds, what DECAP checks, reads and gives back -/

namespace Sys2Proof.Machine

/-! ### ENCAP builds the frame around the payload (R100 to R105) -/

/-- The sum `N + 11` does not wrap where a buffer holds the frame (R105). -/
theorem toNat_add_eleven {n : Half} {a : Attachment} (hcap : n.toNat + 11 ≤ a.cap.toNat) :
    (n + 11).toNat = n.toNat + 11 := by
  have := a.cap.isLt
  bv_omega

/-- ENCAP in a buffer that holds the frame: the frame of its operands around the old payload (R100 to R104). -/
theorem exec_encap_frame {panId src dst : Half} {seq : Byte} {n : Half} {s : State} {a : Attachment}
    (hatt : s.att = some a) (hcap : n.toNat + 11 ≤ a.cap.toNat) :
    ∃ m', exec (.encap panId src dst seq n) s = .next { s with
        mem := m', res := { okResult with frameLen := some (n + 11) } } ∧
      Memory.readBytes m' a.region.base (n.toNat + 11) =
        frameBytes seq panId dst src (Memory.readBytes s.mem a.region.base n.toNat) ∧
      sameOutside s.mem m' a.region.base (n.toNat + 11) := by
  obtain ⟨m', hm, hframe, hout, -⟩ := encapBody_spec (r := a.region) s.mem panId src dst seq hcap
  have hlen : BitVec.ofNat 16 (n.toNat + 11) = n + 11 := by simp [BitVec.ofNat_add]
  have hexec := (Completes.encap hatt hcap hm).exec_eq
  rw [hlen] at hexec
  exact ⟨m', hexec, hframe, hout⟩

/-- Settles O18: ENCAP leaves the frame of its operands in the buffer, and DECAP of a frame gives its fields back. -/
theorem decapInvertsEncap : Obligations.DecapInvertsEncap := by
  intro panId src dst seq n s a hatt hcap
  obtain ⟨m, hencap, hframe, -⟩ := exec_encap_frame (panId := panId) (src := src) (dst := dst) (seq := seq) hatt hcap
  have hlen := toNat_add_eleven hcap
  obtain ⟨u, hdecap, -, hres, hmem⟩ := exec_decap_frameBytes (len := n + 11)
    (s := { s with mem := m, res := { okResult with frameLen := some (n + 11) } })
    (payload := Memory.readBytes s.mem a.region.base n.toNat) hatt (by simpa using hlen)
    (hlen.trans_le hcap) (by simpa using hframe)
  exact ⟨_, u, hencap, hdecap, by simpa using hres, by simpa using hmem⟩

/-- Settles O14: the capacity check alone decides between the frame and the error. -/
theorem encapBuildsTheFrameInPlace : Obligations.EncapBuildsTheFrameInPlace := by
  intro panId src dst seq n s a hatt
  refine ⟨⟨rfl, rfl⟩, exec_encap_frame hatt, fun hcap => ?_⟩
  exact exec_rangeError hatt nofun (if_pos hcap)

/-! ### DECAP's checks (R107, R115) -/

theorem frameError_shortFrame {r : Region} {len : Nat} (m : Memory) (h : len < 11) :
    frameError r len m = some (.malformedFrame, .shortFrame) := if_pos h

theorem frameError_badFrameControl {r : Region} {len : Nat} {m : Memory} (hlen : 11 ≤ len)
    (h : Memory.read m r.base ≠ 0x41 ∨ Memory.read m (r.base + 1) ≠ 0x88) :
    frameError r len m = some (.malformedFrame, .badFrameControl) := by
  rw [frameError, if_neg (Nat.not_lt.mpr hlen), if_pos h]

theorem frameError_eq_none {r : Region} {len : Nat} {m : Memory} (hlen : 11 ≤ len)
    (h0 : Memory.read m r.base = 0x41) (h1 : Memory.read m (r.base + 1) = 0x88) : frameError r len m = none := by
  rw [frameError, if_neg (Nat.not_lt.mpr hlen), if_neg (by simp [h0, h1])]

/-- DECAP in a buffer that holds the frame raises what R107 finds wrong with the frame. -/
theorem exec_decap_frameError {len : Half} {s : State} {a : Attachment} {st : Status} {c : Cause}
    (hatt : s.att = some a) (hcap : len.toNat ≤ a.cap.toNat)
    (h : frameError a.region len.toNat s.mem = some (st, c)) :
    exec (.decap len) s = .next { s with res := errorResult st c } :=
  exec_rangeError hatt nofun ((if_neg (Nat.not_lt.mpr hcap)).trans h)

/-- Settles O16: a frame longer than the buffer, then each outcome of `frameError`, then the completion. -/
theorem decapChecksInOrder : Obligations.DecapChecksInOrder := by
  intro len s a hatt
  refine ⟨fun hcap => ?_, fun hcap hlen => ?_, fun hcap hlen hfc => ?_, fun hcap hlen h0 h1 => ?_⟩
  · exact exec_rangeError hatt nofun (if_pos hcap)
  · exact exec_decap_frameError hatt hcap (frameError_shortFrame s.mem hlen)
  · exact exec_decap_frameError hatt hcap (frameError_badFrameControl hlen hfc)
  · exact ⟨_, (Completes.decap hatt hcap (frameError_eq_none hlen h0 h1) rfl).exec_eq, rfl⟩

/-! ### What DECAP gives back (R106, R108) -/

/-- Settles O15: the completion of DECAP, its memory written twice inside the frame: the payload, then the draws. -/
theorem decapReturnsFieldsAndPayload : Obligations.DecapReturnsFieldsAndPayload := by
  intro len s a hatt
  refine ⟨⟨rfl, rfl⟩, fun hcap hlen h0 h1 => ?_, fun st c he => exec_of_firstError he⟩
  have hpayloadLen : BitVec.ofNat 16 (len.toNat - 11) = len - 11 := by bv_omega
  have hexec := (Completes.decap hatt hcap (frameError_eq_none hlen h0 h1) rfl).exec_eq
  simp only [headerOf, hpayloadLen] at hexec
  refine ⟨_, hexec, ?_, fun _ => read_freeBytes, ?_⟩
  · rw [Memory.readBytes_writeBytes_above _ le_rfl, readBytes_payloadMoved _ rfl]
  · have hmoved : sameOutside s.mem (payloadMoved a.region len.toNat s.mem) a.region.base len.toNat :=
      sameOutside_writeBytes _ le_rfl (by simp)
    exact hmoved.trans (sameOutside_writeBytes _ (by omega) (by simp; omega))

/-! ### DECAP reads only the frame (R109)

The reads of R51 with the frame's own bytes for the buffer: `frameError` and `payloadMoved` name the buffer's start and
the frame's length, and not the buffer's. -/

theorem sameInside.frameError_eq_of_frame {m m' : Memory} {r : Region} {len : Nat} (h : sameInside m m' r.base len) :
    frameError r len m' = frameError r len m :=
  sameInside.frameError_eq (r := { base := r.base, cap := len }) h le_rfl

theorem payloadMoved_sameInside_frame {m m' : Memory} {r : Region} {len : Nat} (h : sameInside m m' r.base len)
    (hlen : 11 ≤ len) : sameInside (payloadMoved r len m) (payloadMoved r len m') r.base len :=
  payloadMoved_sameInside (r := { base := r.base, cap := len }) h hlen le_rfl

/-- DECAP's first error depends on no byte past the frame. -/
theorem sameInside.firstError_decap_eq {len : Half} {s : State} {a : Attachment} {m : Memory}
    (h : sameInside s.mem m a.region.base len.toNat) (hatt : s.att = some a) :
    firstError (.decap len) { s with mem := m } = firstError (.decap len) s := by
  simp only [firstError, hatt, rangeError, h.frameError_eq_of_frame]

/-- Settles O17: an error is the same error, and a completion has the same fields, the same payload and the same draws. -/
theorem decapReadsOnlyTheFrame : Obligations.DecapReadsOnlyTheFrame := by
  intro len s t a m ha h hexec
  obtain ⟨st, c, he, rfl⟩ | hc := exec_eq_next_iff.mp hexec
  · exact ⟨m, exec_of_firstError ((h.firstError_decap_eq ha).trans he), h⟩
  · cases hc with
    | decap hatt hcap hframe hf =>
      cases ha.symm.trans hatt
      have hlen := le_of_frameError_none hframe
      have hc' := Completes.decap (s := { s with mem := m }) hatt hcap (h.frameError_eq_of_frame.trans hframe)
        (hf.trans (h.headerOf_eq hlen).symm)
      exact ⟨_, hc'.exec_eq, (payloadMoved_sameInside_frame h hlen).writeBytes _ _⟩

/-! ### Frames the block builds pass DECAP's checks (R112) -/

/-- A command that reports OK met no error: no error status is the OK status (R161). -/
theorem completes_of_status_ok {i : Instr} {s t : State} (h : exec i s = .next t)
    (hok : t.res.status = some 0x00) : Completes s i t := by
  obtain ⟨st, c, -, rfl⟩ | hc := exec_eq_next_iff.mp h
  · simp at hok
  · exact hc

/-- A frame of R77 in the attached buffer passes DECAP's checks. -/
theorem exec_decap_ok_of_frameBytes {len : Half} {s : State} {a : Attachment} {seq : Byte} {p d src : Half}
    {payload : List Byte} (hatt : s.att = some a) (hlen : len.toNat = payload.length + 11)
    (hcap : len.toNat ≤ a.region.cap)
    (h : Memory.readBytes s.mem a.region.base (payload.length + 11) = frameBytes seq p d src payload) :
    ∃ u, exec (.decap len) s = .next u ∧ u.res.status = some 0x00 := by
  obtain ⟨u, hexec, -, hres, -⟩ := exec_decap_frameBytes hatt hlen hcap h
  exact ⟨u, hexec, by simp [hres]⟩

/-- What PREP_ADV and SEND_ADV leave in the buffer is the advertisement frame of R87. -/
theorem Completes.advFrame_built {i : Instr} {s t : State} (hc : Completes s i t)
    (hi : (∃ ts, i = .prepAdv ts) ∨ i = .sendAdv) :
    ∃ a seq panId addr ts, t.att = some a ∧ 16 ≤ a.region.cap ∧
      Memory.readBytes t.mem a.region.base 16 = advFrame seq panId addr ts := by
  obtain ⟨ts, rfl⟩ | rfl := hi
  · cases hc with
    | prepAdv hatt hinit hcap hm => exact ⟨_, _, _, _, _, hatt, hcap, (buildAdv_frame hcap hm).1⟩
  · cases hc with
    | sendAdv hatt hinit hcap hsched hm => exact ⟨_, _, _, _, _, hatt, hcap, (buildAdv_frame hcap hm).1⟩

/-- The event a command appends is an advertisement or a reply: only SEND_ADV and a reply append one (R33, R174). -/
theorem Completes.event_shape {i : Instr} {s t : State} {e : TxEvent} (hc : Completes s i t)
    (htx : t.txLog = s.txLog ++ [e]) : e.isAdv ∨ e.isReply := by
  cases hc with
  | sendAdv =>
    obtain rfl := List.singleton_inj.mp (List.append_cancel_left htx)
    exact .inl (isAdv_advEvent ..)
  | reply =>
    obtain rfl := List.singleton_inj.mp (List.append_cancel_left htx)
    exact .inr (isReply_replyEvent ..)
  | _ => simp at htx

/-- The bytes of an advertisement and of a reply are a frame of R77 of the event's length (R87, R88). -/
theorem exists_frameBytes_of_event {e : TxEvent} (h : e.isAdv ∨ e.isReply) :
    ∃ seq panId dst src payload, e.len.toNat = payload.length + 11 ∧
      e.bytes = frameBytes seq panId dst src payload := by
  obtain ⟨hlen, seq, panId, addr, hbytes⟩ | ⟨hlen, panId, dst, addr, tAdv, rx, hbytes⟩ := h
  · exact ⟨_, _, _, _, _, by rw [hlen]; rfl, hbytes⟩
  · exact ⟨_, _, _, _, _, by rw [hlen]; rfl, hbytes⟩

/-- Settles O19: each of the three holds a frame of R77, in the buffer it was built in or as an event's bytes. -/
theorem builtFramesPassDecap : Obligations.BuiltFramesPassDecap := by
  refine ⟨fun panId src dst seq n s t h hok => ?_, fun i s t hi h hok => ?_,
    fun i s t v e b h htx hatt hcap hbytes => ?_⟩
  · cases completes_of_status_ok h hok with
    | encap hatt hcap hm =>
      have hlen := toNat_add_eleven hcap
      exact exec_decap_ok_of_frameBytes (payload := Memory.readBytes s.mem _ n.toNat) hatt
        (hlen.trans (by simp)) (hlen.trans_le hcap) (by simpa using (encapBody_frame hcap hm).1)
  · obtain ⟨a, seq, panId, addr, ts, hatt, hcap, hframe⟩ := (completes_of_status_ok h hok).advFrame_built hi
    exact exec_decap_ok_of_frameBytes (payload := tsBytes ts) hatt rfl hcap hframe
  · obtain ⟨seq, panId, dst, src, payload, hlen, hframe⟩ :=
      exists_frameBytes_of_event ((completes_of_transmit h htx).event_shape htx)
    exact exec_decap_ok_of_frameBytes hatt hlen hcap (by rw [← hlen, hbytes, hframe])

end Sys2Proof.Machine

/-! # Proofs about timestamps (41_timestamp.md): the codec, the scheduled instant, and the two field commands -/

namespace Sys2Proof.Machine

/-! ### The timestamp codec (R121, R122, R125) -/

/-- Below `2^40` the five bytes hold the whole timestamp. -/
theorem tsValue_tsBytes {t : Tick} (h : t.toNat < 2 ^ 40) : tsValue (tsBytes t) = t := by
  apply BitVec.eq_of_toNat_eq
  rw [tsValue_tsBytes_toNat, Nat.mod_eq_of_lt h]

/-- Encoding the number of five bytes gives each byte back at its place. -/
theorem tsBytes_tsValue (b0 b1 b2 b3 b4 : Byte) : tsBytes (tsValue [b0, b1, b2, b3, b4]) = [b0, b1, b2, b3, b4] := by
  simp only [tsBytes, List.cons.injEq, and_true]
  refine ⟨?_, ?_, ?_, ?_, ?_⟩ <;> apply BitVec.eq_of_toNat_eq <;>
    simp only [BitVec.extractLsb'_toNat, Nat.shiftRight_eq_div_pow, tsValue_toNat] <;> omega

/-- Settles O20: the round trip of a timestamp, and of a sequence of five bytes. -/
theorem timestampCodecLaws : Obligations.TimestampCodecLaws := by
  refine ⟨tsValue_tsBytes_toNat, fun _ => tsValue_tsBytes, fun s hs => ?_⟩
  match s, hs with
  | [b0, b1, b2, b3, b4], _ => exact tsBytes_tsValue b0 b1 b2 b3 b4

/-! ### The scheduled instant (R126) -/

/-- Bits 39:0 of a scheduled instant are the same in both modes. -/
theorem tsAdd_toNat_mod (mode : TsArith) (t : Tick) (d : BitVec 40) :
    (tsAdd mode t d).toNat % 2 ^ 40 = (t.toNat + d.toNat) % 2 ^ 40 := by
  rw [tsAdd_toNat]
  cases mode with
  | wrap40 => exact Nat.mod_mod _ _
  | wrap64 => exact Nat.mod_mod_of_dvd _ (by decide)

/-- A scheduled instant is encoded as `(t + d) mod 2^40` in both modes. -/
theorem tsBytes_tsAdd (mode : TsArith) (t : Tick) (d : BitVec 40) :
    tsBytes (tsAdd mode t d) = tsBytes (BitVec.ofNat 64 ((t.toNat + d.toNat) % 2 ^ 40)) := by
  apply tsBytes_eq_of_mod
  rw [tsAdd_toNat_mod, BitVec.toNat_ofNat]
  omega

/-- The two modes schedule one instant where neither the time nor the sum passes 40 bits. -/
theorem tsAdd_wrap40_eq_wrap64 {t : Tick} {d : BitVec 40} (h : t.toNat + d.toNat < 2 ^ 40) :
    tsAdd .wrap40 t d = tsAdd .wrap64 t d := by
  apply BitVec.eq_of_toNat_eq
  rw [tsAdd_toNat, tsAdd_toNat]
  dsimp only
  omega

/-! ### Two blocks that differ in their mode only (R126, R127) -/

/-- The block with another scheduling mode (R28). -/
def State.withTsArith (mode : TsArith) (s : State) : State :=
  { s with params := { s.params with tsArith := mode } }

/-- Of the instant, an advertisement holds only its five bytes. -/
theorem buildAdv_congr {t u : Tick} (h : tsBytes t = tsBytes u) (r : Region) (hr : Handler) (m : Memory) :
    buildAdv r t hr m = buildAdv r u hr m := by
  simp only [buildAdv, h]

/-- Of its own instant, a reply holds only its five bytes. -/
theorem buildReply_congr {t u : Tick} (h : tsBytes t = tsBytes u) (rb : Memory) (p d a : Half) (tAdv rx : Tick) :
    buildReply rb p d a tAdv rx t = buildReply rb p d a tAdv rx u := by
  simp only [buildReply, h]

/-- What is sent in a transmit event: all of it but the instant (R33). -/
def TxEvent.content (e : TxEvent) : List Byte × Half :=
  (e.bytes, e.len)

theorem advEvent_content_congr {t u : Tick} (h : tsBytes t = tsBytes u) (hr : Handler) :
    (advEvent hr t).content = (advEvent hr u).content := by
  simp only [TxEvent.content, advEvent, advFrame, h]

theorem replyEvent_content_congr {t u : Tick} (h : tsBytes t = tsBytes u) (hr : Handler) (d : Half) (tAdv rx : Tick) :
    (replyEvent hr d tAdv rx t).content = (replyEvent hr d tAdv rx u).content := by
  simp only [TxEvent.content, replyEvent, replyFrame, h]

theorem map_content_append {e e' : TxEvent} (h : e.content = e'.content) (l : List TxEvent) :
    (l ++ [e]).map TxEvent.content = (l ++ [e']).map TxEvent.content := by
  simp only [List.map_append, List.map_singleton, h]

/-- What a command that completes does in the other mode: the same, but for the instant of the event it may append. -/
theorem Completes.withTsArith {i : Instr} {s t : State} (h : Completes s i t) (mode : TsArith) :
    ∃ tx, s.txLog <+: tx ∧
      Completes (s.withTsArith mode) i { t with params := (s.withTsArith mode).params, txLog := tx } ∧
      t.txLog.map TxEvent.content = tx.map TxEvent.content := by
  have hbytes (x : Tick) (d : BitVec 40) : tsBytes (tsAdd s.params.tsArith x d) = tsBytes (tsAdd mode x d) :=
    (tsBytes_tsAdd _ x d).trans (tsBytes_tsAdd mode x d).symm
  cases h with
  | init p a => exact ⟨_, List.prefix_rfl, .init p a, rfl⟩
  | encap hatt hcap hm => exact ⟨_, List.prefix_rfl, .encap hatt hcap hm, rfl⟩
  | decap hatt hcap hframe hf => exact ⟨_, List.prefix_rfl, .decap hatt hcap hframe hf, rfl⟩
  | prepAdv hatt hinit hcap hm => exact ⟨_, List.prefix_rfl, .prepAdv hatt hinit hcap hm, rfl⟩
  | sendAdv hatt hinit hcap hsched hm =>
    subst hsched
    have hsent := hbytes (nextClock s) s.params.replyScheduleDelay
    exact ⟨_, List.prefix_append _ _,
      .sendAdv (s := s.withTsArith mode) hatt hinit hcap rfl ((buildAdv_congr hsent ..).symm.trans hm),
      map_content_append (advEvent_content_congr hsent s.hr) s.txLog⟩
  | drop hatt hinit hcap hframe hfilter =>
    exact ⟨_, List.prefix_rfl, .drop hatt hinit hcap hframe hfilter, rfl⟩
  | @reply _ rx _ _ _ _ _ hatt hinit hcap hframe hfilter hsrc hadv hreply hrb =>
    subst hreply
    have hsent := hbytes rx s.params.replyScheduleDelay
    exact ⟨_, List.prefix_append _ _,
      .reply (s := s.withTsArith mode) hatt hinit hcap hframe hfilter hsrc hadv rfl
        ((buildReply_congr hsent ..).symm.trans hrb),
      map_content_append (replyEvent_content_congr hsent s.hr ..) s.txLog⟩
  | tsWrite hatt hcap => exact ⟨_, List.prefix_rfl, .tsWrite hatt hcap, rfl⟩
  | tsRead hatt hcap => exact ⟨_, List.prefix_rfl, .tsRead hatt hcap, rfl⟩

/-- What any command does in the other mode, whether it raises or completes. -/
theorem exec_withTsArith {i : Instr} {s t : State} (h : exec i s = .next t) (mode : TsArith) :
    ∃ tx, s.txLog <+: tx ∧
      exec i (s.withTsArith mode) = .next { t with params := (s.withTsArith mode).params, txLog := tx } ∧
      t.txLog.map TxEvent.content = tx.map TxEvent.content := by
  obtain ⟨st, c, he, rfl⟩ | hc := exec_eq_next_iff.mp h
  · exact ⟨_, List.prefix_rfl, exec_of_firstError (s := s.withTsArith mode) he, rfl⟩
  · obtain ⟨tx, hpre, hc', hmap⟩ := hc.withTsArith mode
    exact ⟨tx, hpre, hc'.exec_eq, hmap⟩

/-- Settles O21: the instants as numbers, and what a change of mode leaves the same (`exec_withTsArith`). -/
theorem scheduledInstantArithmetic : Obligations.ScheduledInstantArithmetic := by
  constructor
  · intro t d
    refine ⟨tsAdd_toNat .wrap40 t d, tsAdd_toNat .wrap64 t d, fun mode => tsBytes_tsAdd mode t d, fun hne => ?_⟩
    by_contra hin
    exact hne (tsAdd_wrap40_eq_wrap64 (by omega))
  · intro i s t mode h
    obtain ⟨_, ⟨sent, rfl⟩, hexec, hmap⟩ := exec_withTsArith h mode
    exact ⟨sent, hexec, hmap⟩

/-! ### The field commands (R123, R124) -/

/-- TS_WRITE of a field inside the buffer: the five bytes at its place, and nothing else but `RES` changes (R123). -/
theorem exec_tsWrite_field {o : Half} {s : State} {a : Attachment} (ts : Tick) (hatt : s.att = some a)
    (hcap : o.toNat + 5 ≤ a.cap.toNat) :
    ∃ m', exec (.tsWrite o ts) s = .next { s with mem := m', res := okResult } ∧
      Memory.readBytes m' (a.region.base + o.toNat) 5 = tsBytes ts ∧
      sameOutside s.mem m' (a.region.base + o.toNat) 5 :=
  ⟨_, (Completes.tsWrite hatt hcap).exec_eq, Memory.readBytes_writeBytes s.mem _ (tsBytes ts),
    sameOutside_writeBytes s.mem le_rfl le_rfl⟩

/-- Settles O23: the capacity check alone decides between the field and the error. -/
theorem tsWriteStoresFiveBigEndianBytes : Obligations.TsWriteStoresFiveBigEndianBytes := by
  intro o ts s a hatt
  refine ⟨⟨rfl, rfl⟩, exec_tsWrite_field ts hatt, fun hcap => ?_⟩
  exact exec_rangeError hatt nofun (if_pos hcap)

/-- The number of a timestamp field in memory, byte by byte (R122). -/
theorem tsValue_readBytes_toNat (m : Memory) (a : Nat) :
    (tsValue (Memory.readBytes m a 5)).toNat =
      (Memory.read m a).toNat * 2 ^ 32 + (Memory.read m (a + 1)).toNat * 2 ^ 24 +
        (Memory.read m (a + 2)).toNat * 2 ^ 16 + (Memory.read m (a + 3)).toNat * 2 ^ 8 +
        (Memory.read m (a + 4)).toNat :=
  tsValue_toNat ..

/-- Settles O24: the completion of TS_READ, its value as a number, and the capacity check. -/
theorem tsReadReturnsTheFieldsNumber : Obligations.TsReadReturnsTheFieldsNumber := by
  intro o s a hatt
  refine ⟨⟨rfl, rfl⟩, fun hcap => ?_, fun hcap => ?_⟩
  · exact ⟨_, (Completes.tsRead hatt hcap).exec_eq, tsValue_readBytes_toNat .., tsValue_readBytes_lt ..⟩
  · exact exec_rangeError hatt nofun (if_pos hcap)

/-- Settles O25: TS_READ finds the five bytes that TS_WRITE left, and they decode to bits 39:0. -/
theorem tsReadInvertsTsWrite : Obligations.TsReadInvertsTsWrite := by
  intro o ts s a hatt hcap
  obtain ⟨m', hwrite, hfield, -⟩ := exec_tsWrite_field ts hatt hcap
  have hread := exec_tsRead_tsBytes (s := { s with mem := m', res := okResult }) hatt hcap hfield
  exact ⟨_, _, _, hwrite, hread, rfl, tsValue_tsBytes_toNat ts⟩

end Sys2Proof.Machine

/-! # Proofs about ranging (42_ranging.md): INIT, the advertisements, PROCESS_RX and its reply, and the control state -/

namespace Sys2Proof.Machine

/-! ### INIT (R131) -/

/-- Settles O26: INIT has no condition to meet, so it completes. -/
theorem initSetsTheIdentity : Obligations.InitSetsTheIdentity :=
  fun p a _ => ⟨⟨rfl, rfl⟩, (Completes.init p a).exec_eq⟩

/-! ### A command raises or completes: which of the two, read off its outcome -/

/-- A command that does not report OK has written `RES` and nothing else (R168). -/
theorem eq_of_status_ne_ok {i : Instr} {s t : State} (h : exec i s = .next t) (hne : t.res.status ≠ some 0x00) :
    t = { s with res := t.res } := by
  obtain ⟨st, c, -, rfl⟩ | hc := exec_eq_next_iff.mp h
  · rfl
  · exact absurd hc.res_fields.1 hne

/-! ### The handler registers (R134, R140) -/

/-- All that a command does to the handler registers: INIT sets them, a successful SEND_ADV steps the counter, and
nothing else writes them. -/
theorem exec_hr_cases {i : Instr} {s t : State} (h : exec i s = .next t) :
    (∃ p a, i = .init p a ∧ t.hr = { panId := p, addr := a, seq := 0, initDone := true }) ∨
    (i = .sendAdv ∧ t.res.status = some 0x00 ∧
      t.hr = { s.hr with seq := seqStep s.params.seqAdvance s.hr.seq }) ∨
    ((∀ p a, i ≠ .init p a) ∧ (i = .sendAdv → t.res.status ≠ some 0x00) ∧ t.hr = s.hr) := by
  obtain ⟨st, c, he, rfl⟩ | hc := exec_eq_next_iff.mp h
  · refine .inr (.inr ⟨?_, fun _ => by simp, rfl⟩)
    rintro p a rfl
    cases he
  · cases hc with
    | init p a => exact .inl ⟨p, a, rfl, rfl⟩
    | sendAdv => exact .inr (.inl ⟨rfl, rfl, rfl⟩)
    | _ => exact .inr (.inr ⟨nofun, nofun, rfl⟩)

/-- Settles O47: the three cases of `exec_hr_cases`; a step of the counter leaves the identity and the control state. -/
theorem onlyInitWritesIdentityAndControlState : Obligations.OnlyInitWritesIdentityAndControlState := by
  intro i s t h
  obtain ⟨p, a, rfl, hhr⟩ | ⟨rfl, -, hhr⟩ | ⟨hi, -, hhr⟩ := exec_hr_cases h
  · exact ⟨by simp [hhr], fun hi => absurd rfl (hi p a)⟩
  · simp [hhr]
  · simp [hhr, hi]

/-! ### The sequence step (R134) -/

@[simp] theorem seqStep_never (q : Byte) : seqStep .never q = q := rfl

@[simp] theorem seqStep_onSendAdv (q : Byte) : seqStep .onSendAdv q = q + 1 := by
  apply BitVec.eq_of_toNat_eq
  simp [seqStep, BitVec.toNat_add]

/-! ### PREP_ADV (R132, R145) -/

/-- PREP_ADV in READY and in a buffer of 16 bytes or more: the advertisement of its operand (R87, R132). -/
theorem exec_prepAdv_frame {ts : Tick} {s : State} {a : Attachment} (hatt : s.att = some a)
    (hinit : s.hr.initDone = true) (hcap : 16 ≤ a.cap.toNat) :
    ∃ m', exec (.prepAdv ts) s = .next { s with mem := m', res := { okResult with frameLen := some 16 } } ∧
      Memory.readBytes m' a.region.base 16 = advFrame s.hr.seq s.hr.panId s.hr.addr ts ∧
      sameOutside s.mem m' a.region.base 16 := by
  obtain ⟨m', hm, hframe, hout, -⟩ := buildAdv_spec (r := a.region) ts s.hr s.mem hcap
  exact ⟨m', (Completes.prepAdv hatt hinit hcap hm).exec_eq, hframe, hout⟩

/-- Settles O27: INIT done and the capacity decide between the frame and the two errors. -/
theorem prepAdvBuildsTheAdvertisement : Obligations.PrepAdvBuildsTheAdvertisement := by
  intro ts s a hatt
  refine ⟨⟨rfl, rfl⟩, exec_prepAdv_frame hatt, fun hinit => ?_, fun hinit hcap => ?_⟩
  · exact exec_uninit rfl hatt hinit
  · exact exec_rangeError hatt (fun _ => hinit) (if_pos hcap)

/-- Settles O28: DECAP of a frame gives its fields and leaves its payload, the timestamp, at offset 0. -/
theorem advertisementDecodesToItsParts : Obligations.AdvertisementDecodesToItsParts := by
  intro ts s a hatt hinit hcap hts
  obtain ⟨m, hprep, hframe, -⟩ := exec_prepAdv_frame (ts := ts) hatt hinit hcap
  obtain ⟨u, hdecap, hatt', hres, hmem⟩ := exec_decap_frameBytes (len := 16)
    (s := { s with mem := m, res := { okResult with frameLen := some 16 } }) (payload := tsBytes ts)
    hatt rfl hcap hframe
  have hin : (0 : Half).toNat + 5 ≤ 16 := by decide
  have hread := exec_tsRead_tsBytes (o := 0) hatt' (hin.trans hcap) (by simpa using hmem)
  rw [tsValue_tsBytes hts] at hread
  exact ⟨_, u, _, hprep, hdecap, hread, hres, rfl⟩

/-! ### SEND_ADV (R133, R134, R146) -/

/-- Settles O29: the completion of SEND_ADV in either mode of the counter, and the two errors before the clock read. -/
theorem sendAdvSchedulesOneTransmit : Obligations.SendAdvSchedulesOneTransmit := by
  intro s a hatt
  refine ⟨⟨rfl, rfl⟩, fun hinit hcap => ?_, fun hinit => ?_, fun hinit hcap => ?_⟩
  · obtain ⟨m', hm, hframe, hout, -⟩ := buildAdv_spec (r := a.region)
      (tsAdd s.params.tsArith (nextClock s) s.params.replyScheduleDelay) s.hr s.mem hcap
    have hexec := (Completes.sendAdv hatt hinit hcap rfl hm).exec_eq
    refine ⟨m', ?_, hframe, hout⟩
    cases hmode : s.params.seqAdvance with
    | never => rw [hmode, seqStep_never] at hexec; exact hexec
    | onSendAdv => rw [hmode, seqStep_onSendAdv] at hexec; exact hexec
  · exact exec_uninit rfl hatt hinit
  · exact exec_rangeError hatt (fun _ => hinit) (if_pos hcap)

/-- The payload of a frame in memory (R77). -/
theorem readBytes_payload {m : Memory} {base : Nat} {seq : Byte} {p d s : Half} {payload : List Byte}
    (h : Memory.readBytes m base (payload.length + 11) = frameBytes seq p d s payload) :
    Memory.readBytes m (base + 9) payload.length = payload := by
  rw [Memory.readBytes_slice (l := payload.length + 11) (by omega), h, frameBytes_payload]

/-- Settles O30: the frame's payload is the scheduled instant, and its five bytes are bits 39:0 of `t0 + d`. -/
theorem embeddedTimestampIsTheScheduledInstant : Obligations.EmbeddedTimestampIsTheScheduledInstant := by
  intro s t a ha h hok
  cases completes_of_status_ok h hok with
  | @sendAdv _ _ sched hatt hinit hcap hsched hm =>
    cases ha.symm.trans hatt
    subst hsched
    have hpayload := readBytes_payload (payload := tsBytes _) (buildAdv_frame hcap hm).1
    refine ⟨nextClock s, _, rfl, rfl, ?_, fun hmode => ?_⟩
    · rw [tsBytes_length] at hpayload
      rw [hpayload, tsValue_tsBytes_toNat, tsAdd_toNat_mod]
    · simp only [advEvent, hmode, tsAdd_toNat]

/-- Settles O31: `exec_hr_cases` for the counter, and the sequence number of the event's frame is the old one. -/
theorem onlySendAdvAdvancesSeq : Obligations.OnlySendAdvAdvancesSeq := by
  intro i s t h
  obtain ⟨p, a, rfl, hhr⟩ | ⟨rfl, hok, hhr⟩ | ⟨hi, hne, hhr⟩ := exec_hr_cases h
  · exact ⟨nofun, nofun, fun _ hi => absurd rfl (hi p a), fun _ _ _ => by rw [hhr]⟩
  · refine ⟨fun _ _ => ⟨?_, fun hmode => ?_, fun hmode => ?_⟩, fun _ hne => absurd hok hne,
      fun hi => absurd rfl hi, nofun⟩
    · cases completes_of_status_ok h hok with
      | sendAdv => exact ⟨_, rfl, rfl⟩
    · rw [hhr, hmode, seqStep_never]
    · rw [hhr, hmode, seqStep_onSendAdv, BitVec.toNat_add]
      rfl
  · exact ⟨fun hs hok => absurd hok (hne hs), fun _ _ => by rw [hhr], fun _ _ => by rw [hhr],
      fun p a hpa => absurd hpa (hi p a)⟩

/-! ### PROCESS_RX: its errors (R135) and its two ends (R136, R137, R143) -/

/-- PROCESS_RX in READY and in a buffer that holds the frame raises what R107 finds wrong with the frame. -/
theorem exec_processRx_frameError {len : Half} {rx : Tick} {s : State} {a : Attachment} {st : Status} {c : Cause}
    (hatt : s.att = some a) (hinit : s.hr.initDone = true) (hcap : len.toNat ≤ a.cap.toNat)
    (h : frameError a.region len.toNat s.mem = some (st, c)) :
    exec (.processRx len rx) s = .next { s with res := errorResult st c } :=
  exec_rangeError hatt (fun _ => hinit) ((if_neg (Nat.not_lt.mpr hcap)).trans h)

/-- Settles O32: INIT not done, a frame longer than the buffer, then each outcome of `frameError`. -/
theorem processRxChecksInOrder : Obligations.ProcessRxChecksInOrder := by
  intro len rx s a hatt
  refine ⟨⟨rfl, rfl⟩, fun hinit => ?_, fun hinit hcap => ?_, fun hinit hcap hlen => ?_, fun hinit hcap hlen hfc => ?_⟩
  · exact exec_uninit rfl hatt hinit
  · exact exec_rangeError hatt (fun _ => hinit) (if_pos hcap)
  · exact exec_processRx_frameError hatt hinit hcap (frameError_shortFrame s.mem hlen)
  · exact exec_processRx_frameError hatt hinit hcap (frameError_badFrameControl hlen hfc)

theorem bufferDrawn_drawnBytes {r : Region} {len : Nat} {s : State} :
    drawnBytes (bufferDrawn r len s) r.base r.cap s.drawSource s.drawCount := fun _ => read_freeBytes

/-- Settles O33: a frame that fails a filter takes the drop of `Completes`. -/
theorem filteredFramesAreDroppedSilently : Obligations.FilteredFramesAreDroppedSilently := by
  intro len rx s a hatt hinit hcap hlen h0 h1 hfails
  have hfilter : ¬ passesFilters s.mem a.region.base len.toNat s.hr.panId := by
    rintro ⟨hpan, hdst, hpay⟩
    simp [hpan, hdst, hpay] at hfails
  exact ⟨_, (Completes.drop hatt hinit hcap (frameError_eq_none hlen h0 h1) hfilter).exec_eq,
    bufferDrawn_drawnBytes, bufferDrawn_sameOutside s hcap⟩

/-- Settles O34: a frame that passes the filters takes the reply of `Completes`, whose frame stands in `RBUF`. -/
theorem acceptedAdvertisementIsAnswered : Obligations.AcceptedAdvertisementIsAnswered := by
  intro len rx s a hatt hinit hcap hlen h0 h1 hfilter
  obtain ⟨rb, hrb, hframe, -⟩ := buildReply_spec s.rbuf s.hr.panId (headerField s.mem a.region.base 7) s.hr.addr
    (tsValue (Memory.readBytes s.mem (a.region.base + 9) 5)) rx
    (tsAdd s.params.tsArith rx s.params.replyScheduleDelay)
  have hc := Completes.reply hatt hinit hcap (frameError_eq_none hlen h0 h1) hfilter rfl rfl rfl hrb
  exact ⟨_, rb, _, rfl, hc.exec_eq, hframe, bufferDrawn_drawnBytes, bufferDrawn_sameOutside s hcap⟩

/-- Past its checks PROCESS_RX leaves the same memory whether it drops or replies (R143). -/
theorem Completes.processRx_mem {len : Half} {rx : Tick} {s t : State} {a : Attachment}
    (hc : Completes s (.processRx len rx) t) (ha : s.att = some a) : t.mem = bufferDrawn a.region len.toNat s := by
  cases hc with
  | drop hatt | reply hatt => cases ha.symm.trans hatt; rfl

/-- PROCESS_RX past DECAP's checks drops or replies: no condition of R161 holds (R135). -/
theorem firstError_processRx_none {len : Half} {rx : Tick} {s : State} {a : Attachment} (hatt : s.att = some a)
    (hinit : s.hr.initDone = true) (hcap : len.toNat ≤ a.cap.toNat)
    (hframe : frameError a.region len.toNat s.mem = none) : firstError (.processRx len rx) s = none := by
  have hcap' : ¬ a.region.cap < len.toNat := Nat.not_lt.mpr hcap
  simp [firstError, hatt, hinit, rangeError, hcap', hframe]

/-- Settles O36: where no error is reported the command completes (`processRx_mem`); where one is, only `RES` changes. -/
theorem processRxLeavesTheBufferUnspecified : Obligations.ProcessRxLeavesTheBufferUnspecified := by
  intro len rx s t a hatt h
  refine ⟨fun hframe hinit hcap => ?_, fun hne => ?_⟩
  · obtain ⟨u, hc⟩ := exists_completes (firstError_processRx_none (rx := rx) hatt hinit hcap hframe)
    cases h.symm.trans hc.exec_eq
    rw [hc.processRx_mem hatt]
    exact bufferDrawn_drawnBytes
  · rw [eq_of_status_ne_ok h hne]

/-! ### What PROCESS_RX depends on (R139)

Two frames with the same bytes at different places show PROCESS_RX the same conditions, fields and payload. -/

section
variable {m m' : Memory} {base base' n : Nat}
  (h : ∀ i < n, Memory.read m (base + i) = Memory.read m' (base' + i))
include h

theorem headerField_congr {o : Nat} (ho : o + 2 ≤ n) : headerField m base o = headerField m' base' o := by
  simp only [headerField, Nat.add_assoc, h o (by omega), h (o + 1) (by omega)]

theorem passesFilters_congr {len : Nat} {panId : Half} (hn : 11 ≤ n) :
    passesFilters m base len panId ↔ passesFilters m' base' len panId := by
  simp only [passesFilters, headerField_congr h (o := 3) (by omega), headerField_congr h (o := 5) (by omega)]

theorem readBytes_congr_at {k l : Nat} (hk : k + l ≤ n) :
    Memory.readBytes m (base + k) l = Memory.readBytes m' (base' + k) l :=
  Memory.readBytes_congr fun i _ => by rw [Nat.add_assoc, Nat.add_assoc, h (k + i) (by omega)]

end

theorem frameError_congr {m m' : Memory} {r r' : Region} {len : Nat}
    (h : ∀ i < len, Memory.read m (r.base + i) = Memory.read m' (r'.base + i)) :
    frameError r len m = frameError r' len m' := by
  unfold frameError
  split
  · rfl
  · have h0 := h 0 (by omega)
    simp only [Nat.add_zero] at h0
    rw [h0, h 1 (by omega)]

/-- Two states alike in what R139 lists, with their buffers `a` and `b`, of one length, and the frame at the start of each. -/
structure RxAlike (len : Half) (s t : State) (a b : Attachment) : Prop where
  att_left : s.att = some a
  att_right : t.att = some b
  cap : a.cap = b.cap
  frame : ∀ i < len.toNat, Memory.read s.mem (a.region.base + i) = Memory.read t.mem (b.region.base + i)
  panId : s.hr.panId = t.hr.panId
  addr : s.hr.addr = t.hr.addr
  initDone : s.hr.initDone = t.hr.initDone
  delay : s.params.replyScheduleDelay = t.params.replyScheduleDelay
  arith : s.params.tsArith = t.params.tsArith

theorem RxAlike.region_cap {len : Half} {s t : State} {a b : Attachment} (h : RxAlike len s t a b) :
    a.region.cap = b.region.cap := congrArg BitVec.toNat h.cap

/-- Alike states report the same error (R135, R139). -/
theorem RxAlike.firstError_eq {len : Half} {s t : State} {a b : Attachment} (h : RxAlike len s t a b) (rx : Tick) :
    firstError (.processRx len rx) s = firstError (.processRx len rx) t := by
  simp only [firstError, h.att_left, h.att_right, h.initDone, rangeError, h.region_cap, frameError_congr h.frame]

/-- Of two alike states both drop, or both send the one reply and leave it in `RBUF`. -/
theorem RxAlike.completes {len : Half} {rx : Tick} {s t s' : State} {a b : Attachment} (h : RxAlike len s t a b)
    (hc : Completes s (.processRx len rx) s') :
    ∃ t' sent, Completes t (.processRx len rx) t' ∧
      s'.res = t'.res ∧ s'.txLog = s.txLog ++ sent ∧ t'.txLog = t.txLog ++ sent ∧
      (sent = [] → s'.rbuf = s.rbuf ∧ t'.rbuf = t.rbuf) ∧
      (sent ≠ [] → Memory.readBytes s'.rbuf 0 26 = Memory.readBytes t'.rbuf 0 26) := by
  cases hc with
  | drop hatt hinit hcap hframe hfilter =>
    cases h.att_left.symm.trans hatt
    have hlen := le_of_frameError_none hframe
    rw [passesFilters_congr h.frame hlen, h.panId] at hfilter
    exact ⟨_, [], .drop h.att_right (h.initDone ▸ hinit) (h.region_cap ▸ hcap)
      ((frameError_congr h.frame).symm.trans hframe) hfilter, rfl, by simp⟩
  | @reply _ _ _ _ src tAdv tReply hatt hinit hcap hframe hfilter hsrc hadv hreply hrb =>
    cases h.att_left.symm.trans hatt
    have hlen := le_of_frameError_none hframe
    have hpay := hfilter.2.2
    rw [passesFilters_congr h.frame hlen, h.panId] at hfilter
    rw [headerField_congr h.frame (by omega)] at hsrc
    rw [readBytes_congr_at h.frame (by omega)] at hadv
    rw [h.arith, h.delay] at hreply
    rw [h.panId, h.addr] at hrb
    obtain ⟨rb', hrb', hreplied, -⟩ := buildReply_spec t.rbuf t.hr.panId src t.hr.addr tAdv rx tReply
    refine ⟨_, [replyEvent t.hr src tAdv rx tReply], .reply h.att_right (h.initDone ▸ hinit) (h.region_cap ▸ hcap)
      ((frameError_congr h.frame).symm.trans hframe) hfilter hsrc hadv hreply hrb', rfl, ?_, rfl, nofun, fun _ => ?_⟩
    · simp only [replyEvent, h.panId, h.addr]
    · exact (buildReply_frame hrb).trans hreplied.symm

/-- Settles O35: alike states report the same error, or complete alike. -/
theorem processRxDependsOnlyOnFrameAndIdentity : Obligations.ProcessRxDependsOnlyOnFrameAndIdentity := by
  intro len rx s t a b hs ht hcap hframe hpan haddr hinit hdelay harith
  have h : RxAlike len s t a b := ⟨hs, ht, hcap, hframe, hpan, haddr, hinit, hdelay, harith⟩
  cases he : firstError (.processRx len rx) s with
  | some p =>
    exact ⟨_, _, [], exec_of_firstError he, exec_of_firstError ((h.firstError_eq rx).symm.trans he), rfl, by simp⟩
  | none =>
    obtain ⟨s', hc⟩ := exists_completes he
    obtain ⟨t', sent, hc', hsame⟩ := h.completes hc
    exact ⟨s', t', sent, hc.exec_eq, hc'.exec_eq, hsame⟩

/-! ### `RBUF` and the logs (R142, R144) -/

/-- A completion of any command but PROCESS_RX neither reads nor writes `RBUF` (R32, R142). -/
theorem Completes.of_rbuf {i : Instr} {s t : State} (hc : Completes s i t) (hi : ∀ len rx, i ≠ .processRx len rx)
    (rb : Memory) : t.rbuf = s.rbuf ∧ Completes { s with rbuf := rb } i { t with rbuf := rb } := by
  cases hc with
  | init p a => exact ⟨rfl, .init p a⟩
  | encap hatt hcap hm => exact ⟨rfl, .encap hatt hcap hm⟩
  | decap hatt hcap hframe hf => exact ⟨rfl, .decap hatt hcap hframe hf⟩
  | prepAdv hatt hinit hcap hm => exact ⟨rfl, .prepAdv hatt hinit hcap hm⟩
  | sendAdv hatt hinit hcap hsched hm => exact ⟨rfl, .sendAdv hatt hinit hcap hsched hm⟩
  | drop | reply => exact absurd rfl (hi _ _)
  | tsWrite hatt hcap => exact ⟨rfl, .tsWrite hatt hcap⟩
  | tsRead hatt hcap => exact ⟨rfl, .tsRead hatt hcap⟩

/-- Settles O37: only a reply adds an event or writes `RBUF`, and its event holds what it left there (O39). -/
theorem rbufHoldsOnlyTheLastReply : Obligations.RbufHoldsOnlyTheLastReply := by
  refine ⟨fun len rx s t h => ⟨fun htx => ?_, fun e htx => ?_⟩, fun i s t rb hi h => ?_⟩
  · obtain ⟨st, c, -, rfl⟩ | hc := exec_eq_next_iff.mp h
    · rfl
    · cases hc with
      | drop => rfl
      | reply => simp at htx
  · exact (transmitSnapshotsTheFinishedFrame.2 len rx s t e h htx).1.symm
  · obtain ⟨st, c, he, rfl⟩ | hc := exec_eq_next_iff.mp h
    · exact ⟨rfl, exec_of_firstError (s := { s with rbuf := rb }) he⟩
    · obtain ⟨hrbuf, hc'⟩ := hc.of_rbuf hi rb
      exact ⟨hrbuf, hc'.exec_eq⟩

/-- Settles O38: a command that raises appends nothing, and each completion shows what it appends. -/
theorem logsGrowByCommand : Obligations.LogsGrowByCommand := by
  refine fun s t => ⟨fun ts h => ?_, fun h => ⟨fun hok => ?_, fun hne => ?_⟩, fun len rx h => ?_⟩
  · obtain ⟨st, c, -, rfl⟩ | hc := exec_eq_next_iff.mp h
    · exact ⟨rfl, rfl⟩
    · cases hc with
      | prepAdv => exact ⟨rfl, rfl⟩
  · cases completes_of_status_ok h hok with
    | sendAdv => exact ⟨_, _, rfl, rfl⟩
  · rw [eq_of_status_ne_ok h hne]
    exact ⟨rfl, rfl⟩
  · obtain ⟨st, c, -, rfl⟩ | hc := exec_eq_next_iff.mp h
    · exact ⟨rfl, by simp, fun _ => rfl⟩
    · cases hc with
      | drop hatt hinit hcap hframe hfilter =>
        refine ⟨rfl, ?_, fun _ => rfl⟩
        rintro ⟨a, ha, -, hpasses⟩
        cases hatt.symm.trans ha
        exact absurd hpasses hfilter
      | reply hatt hinit hcap hframe hfilter =>
        exact ⟨rfl, fun _ => ⟨_, rfl⟩, fun hnot => absurd ⟨_, hatt, rfl, hfilter⟩ hnot⟩

/-! ### The source's scenarios (R147 to R149) -/

/-- The three filters, tested on a frame of R77 in memory. -/
theorem passesFilters_frameBytes {m : Memory} {base : Nat} {seq : Byte} {p d src panId : Half} {payload : List Byte}
    (h : Memory.readBytes m base (payload.length + 11) = frameBytes seq p d src payload) :
    passesFilters m base (payload.length + 11) panId ↔ p = panId ∧ d = 0xFFFF ∧ payload.length = 5 := by
  rw [passesFilters_iff, headerOf_frameBytes h]
  rfl

/-- A frame with a timestamp for payload, of another PAN or not broadcast, is dropped (R136). -/
theorem exec_processRx_filtered {s : State} {a : Attachment} {seq : Byte} {p d src : Half} {ts : Tick} (rx : Tick)
    (hatt : s.att = some a) (hinit : s.hr.initDone = true) (hcap : 16 ≤ a.cap.toNat)
    (h : Memory.readBytes s.mem a.region.base 16 = frameBytes seq p d src (tsBytes ts))
    (hne : p ≠ s.hr.panId ∨ d ≠ 0xFFFF) :
    ∃ t, exec (.processRx 16 rx) s = .next t ∧ t.txLog = s.txLog ∧ t.res = okResult := by
  have hfilter : ¬ passesFilters s.mem a.region.base 16 s.hr.panId := by
    intro hpasses
    obtain ⟨hpan, hdst, -⟩ := (passesFilters_frameBytes (payload := tsBytes ts) h).mp hpasses
    exact hne.elim (absurd hpan) (absurd hdst)
  exact ⟨_, (Completes.drop (len := 16) hatt hinit hcap (frameError_frameBytes (payload := tsBytes ts) h)
    hfilter).exec_eq, rfl, rfl⟩

/-- Settles O41: the PAN filter. -/
theorem otherPanIsNotAnswered : Obligations.OtherPanIsNotAnswered :=
  fun _ _ _ _ _ rx hatt hinit hcap hpan h =>
    exec_processRx_filtered rx hatt hinit hcap h (.inl (by rw [hpan]; decide))

/-- Settles O42: the destination filter. -/
theorem unicastAdvertisementIsNotAnswered : Obligations.UnicastAdvertisementIsNotAnswered :=
  fun _ _ _ _ _ _ rx hatt hinit hcap hdst h => exec_processRx_filtered rx hatt hinit hcap h (.inr hdst)

/-- Settles O40: the frame in the buffer passes the filters, and the reply carries its timestamp, `rx` and the instant. -/
theorem replyToTheSourcesExample : Obligations.ReplyToTheSourcesExample := by
  intro s a seq hatt hinit hcap hdelay h
  have hhead := headerOf_frameBytes (payload := tsBytes 600) h
  have hsrc : headerField s.mem a.region.base 7 = 0xcafe := congrArg Decoded.src hhead
  have hadv : (600 : Tick) = tsValue (Memory.readBytes s.mem (a.region.base + 9) 5) :=
    (congrArg tsValue (readBytes_payload (payload := tsBytes 600) h)).symm
  have hreply : 2400 = tsAdd s.params.tsArith 1400 s.params.replyScheduleDelay := by
    rw [hdelay]
    cases s.params.tsArith <;> rfl
  obtain ⟨rb, hrb, -⟩ := buildReply_spec s.rbuf s.hr.panId 0xcafe s.hr.addr 600 1400 2400
  have hc := Completes.reply (len := 16) hatt hinit hcap (frameError_frameBytes (payload := tsBytes 600) h)
    ((passesFilters_frameBytes (payload := tsBytes 600) h).mpr ⟨rfl, rfl, rfl⟩) hsrc.symm hadv hreply hrb
  exact ⟨_, _, hc.exec_eq, rfl, rfl, rfl, rfl, rfl⟩

end Sys2Proof.Machine

/-! # Proofs about errors, runs and several blocks (60_exceptions.md) -/

namespace Sys2Proof.Machine

/-! ### The step of a delivered command (R70, R172) -/

theorem runDescriptor_of_decode {d : List Byte} {i : Instr} (h : decode d = .ok i) (s : State) :
    runDescriptor d s = exec i s := by
  simp only [runDescriptor, h]

/-- Between commands the block holds its state (R178, R191). -/
theorem step_idle {s : State} (h : s.inbox = []) : step s = .next s := by
  simp only [step, h]

/-- A delivered command that completes returns, and its buffer is released (R53, R169). -/
theorem step_of_completes {s u : State} {c : Command} {rest : List Delivery} {i : Instr}
    (h : s.inbox = .command c :: rest) (hd : decode c.desc = .ok i) (hc : Completes (accept c rest s) i u) :
    step s = .next (release u) := by
  rw [step_of_command h, runDescriptor_of_decode hd, hc.exec_eq]
  rfl

theorem decode_of_commandError_none {c : Command} {s : State} (h : commandError c s = none) :
    ∃ i, decode c.desc = .ok i ∧ firstError i s = none := by
  unfold commandError at h
  split at h
  · cases h
  · cases h
  · exact ⟨_, ‹_›, h⟩

/-- A delivered command that reports no error completes (R161); `step_of_commandError` is the other case. -/
theorem step_of_commandError_none {s : State} {c : Command} {rest : List Delivery}
    (h : s.inbox = .command c :: rest) (he : commandError c (accept c rest s) = none) :
    ∃ i u, Completes (accept c rest s) i u ∧ step s = .next (release u) := by
  obtain ⟨i, hd, hfirst⟩ := decode_of_commandError_none he
  obtain ⟨u, hc⟩ := exists_completes hfirst
  exact ⟨i, u, hc, step_of_completes h hd hc⟩

/-! ### No condition is fatal (R172, R179) -/

theorem Completes.inbox_eq {i : Instr} {s t : State} (h : Completes s i t) : t.inbox = s.inbox := by
  cases h <;> rfl

/-- Every delivered command answers a next state, in which it alone is no longer pending (R169, R179). -/
theorem exists_step_of_command {s : State} {c : Command} {rest : List Delivery} (h : s.inbox = .command c :: rest) :
    ∃ t, step s = .next t ∧ t.inbox = rest := by
  cases he : commandError c (accept c rest s) with
  | some p => exact ⟨_, step_of_commandError h he, rfl⟩
  | none =>
    obtain ⟨i, u, hc, hstep⟩ := step_of_commandError_none h he
    exact ⟨_, hstep, hc.inbox_eq⟩

/-- Under a host that serialises its commands a step always answers a next state, with the next delivery taken. -/
theorem Serialised.exists_step {s : State} (hs : Serialised s) :
    ∃ t, step s = .next t ∧ t.inbox = s.inbox.tail := by
  cases hin : s.inbox with
  | nil => exact ⟨s, step_idle hin, hin⟩
  | cons d rest =>
    cases d with
    | command c => exact exists_step_of_command hin
    | overlapping c d => exact absurd (hin ▸ List.mem_cons_self) (hs c d)

/-- A host that serialises its commands still does once the next one is taken. -/
theorem Serialised.of_inbox_tail {s t : State} (hs : Serialised s) (h : t.inbox = s.inbox.tail) : Serialised t :=
  fun c d hm => hs c d (List.mem_of_mem_tail (h ▸ hm))

theorem run_succ {s t : State} (h : step s = .next t) (n : Nat) :
    Host.Core.run core (n + 1) s = Host.Core.run core n t := by
  have hcore : core.step s = .next t := h
  simp only [Host.Core.run, hcore]

/-- Settles O59, by induction on the number of steps: each of them answers a next state (`Serialised.exists_step`). -/
theorem noRunOfASerialisedHostStops : Obligations.NoRunOfASerialisedHostStops := by
  intro n
  induction n with
  | zero => exact fun s _ => ⟨s, rfl, rfl⟩
  | succ n ih =>
    intro s hs
    obtain ⟨t, hstep, htail⟩ := hs.exists_step
    obtain ⟨u, hrun, hin⟩ := ih t (hs.of_inbox_tail htail)
    exact ⟨u, (run_succ hstep n).trans hrun, by rw [hin, htail, List.drop_tail]⟩

/-! ### The one error a command reports, and what it leaves (R161, R164, R167, R168) -/

theorem Completes.cause_eq {i : Instr} {s t : State} (h : Completes s i t) : t.res.cause = some 0x00 := by
  cases h <;> rfl

/-- Settles O44: a command with an error raises it (`step_of_commandError`), one without completes. -/
theorem everyCommandReportsItsFirstError : Obligations.EveryCommandReportsItsFirstError := by
  refine ⟨fun s c rest h _ => ?_, rfl, rfl⟩
  cases he : commandError c (accept c rest s) with
  | some p => exact ⟨_, step_of_commandError h he, rfl⟩
  | none =>
    obtain ⟨i, u, hc, hstep⟩ := step_of_commandError_none h he
    exact ⟨_, hstep, hc.res_fields.1, hc.cause_eq⟩

/-- Settles O45: a command whose status is not OK did not complete, so it raised an error of R161. -/
theorem errorsHaveNoOtherEffect : Obligations.ErrorsHaveNoOtherEffect := by
  intro s t c rest h hstep hne
  cases he : commandError c (accept c rest s) with
  | some p =>
    cases hstep.symm.trans (step_of_commandError h he)
    exact ⟨⟨p, commandError_mem he, rfl⟩, rfl⟩
  | none =>
    obtain ⟨i, u, hc, hstep'⟩ := step_of_commandError_none h he
    cases hstep.symm.trans hstep'
    exact absurd hc.res_fields.1 hne

/-- Settles O46: the handler commands ask for INIT before they look at the buffer (`exec_uninit`). -/
theorem handlerCommandsNeedInit : Obligations.HandlerCommandsNeedInit := by
  rintro i s a (⟨ts, rfl⟩ | rfl | ⟨len, rx, rfl⟩) hatt hinit <;> exact exec_uninit rfl hatt hinit

/-- Settles O5: the step decodes the descriptor and runs its command; the second clause is its return. -/
theorem stepRunsTheDecodedCommand : Obligations.StepRunsTheDecodedCommand := by
  intro s c rest i h hd
  have hstep : step s = returned (exec i (accept c rest s)) := by
    rw [step_of_command h, runDescriptor_of_decode hd]
  exact ⟨hstep, fun t ht => hstep.trans (congrArg returned ht)⟩

/-- Settles O9: the idle step. -/
theorem blockHoldsItsStateBetweenCommands : Obligations.BlockHoldsItsStateBetweenCommands := fun _ => step_idle

/-! ### Blocks of a system (R176) -/

/-- Settles O53: block `k` is the only one set (`System.stepAt_cases`). -/
theorem blocksOfASystemShareNoState : Obligations.BlocksOfASystemShareNoState := by
  intro sys sys' k h
  obtain ⟨hk, rfl⟩ | ⟨s, t, hk, hstep, rfl⟩ := System.stepAt_cases h
  · exact ⟨rfl, fun _ _ => rfl, fun s hs => absurd (hk.symm.trans hs) nofun⟩
  · refine ⟨List.length_set, fun j hj => List.getElem?_set_ne hj.symm, fun s' hs' => ?_⟩
    cases hk.symm.trans hs'
    exact ⟨t, hstep, List.getElem?_set_self (List.getElem?_eq_some_iff.mp hk).1⟩

theorem Completes.drawSource_eq {i : Instr} {s t : State} (h : Completes s i t) : t.drawSource = s.drawSource := by
  cases h <;> rfl

/-- No step changes the source a block draws from (log 8). -/
theorem step_drawSource {s t : State} (h : step s = .next t) : t.drawSource = s.drawSource := by
  obtain rfl | ⟨c, rest, u, hu, rfl⟩ := step_cases h
  · rfl
  · obtain ⟨st, ca, -, rfl⟩ | ⟨i, -, hc⟩ := runDescriptor_eq_next_iff.mp hu
    · rfl
    · exact hc.drawSource_eq

theorem System.numbered_create (ps : List Params) : System.numbered (System.create ps) := by
  intro k s h
  rw [System.getElem?_create] at h
  obtain ⟨p, -, rfl⟩ := Option.map_eq_some_iff.mp h
  rfl

/-- A block put in the place of one with the same source leaves the numbering as it was. -/
theorem System.numbered.set {sys : System} (hn : System.numbered sys) {k : Nat} {s t : State} (hk : sys[k]? = some s)
    (ht : t.drawSource = s.drawSource) : System.numbered (sys.set k t) := by
  intro j u hj
  by_cases hjk : k = j
  · subst hjk
    rw [List.getElem?_set_self (List.getElem?_eq_some_iff.mp hk).1] at hj
    cases hj
    exact ht.trans (hn k s hk)
  · rw [List.getElem?_set_ne hjk] at hj
    exact hn j u hj

/-- Settles O54: creation numbers the blocks, and neither a step nor a delivery changes a block's source. -/
theorem blocksOfASystemDrawFromTheirOwnSources : Obligations.BlocksOfASystemDrawFromTheirOwnSources := by
  refine ⟨fun ps => ⟨System.numbered_create ps, System.length_create ps, fun k p hp => ?_⟩,
    fun sys sys' k hn h => ?_, fun sys i n j buffer rx hn => ?_, fun sys j k s t hn hj hk hjk => ?_⟩
  · rw [System.getElem?_create, hp]
    rfl
  · obtain ⟨-, rfl⟩ | ⟨s, t, hk, hstep, rfl⟩ := System.stepAt_cases h
    · exact hn
    · exact hn.set hk (step_drawSource hstep)
  · obtain hc | ⟨s, e, t, -, -, hj, hc⟩ := System.carry_cases i n j buffer rx sys
    · rwa [hc]
    · rw [hc]
      exact hn.set hj rfl
  · rwa [hn j s hj, hn k t hk]

/-! ### Advertised instants under a clock that does not fall (R173, R201) -/

/-- Away from the 40-bit wrap a scheduled instant is the plain sum, in either mode (R126, R201). -/
theorem tsAdd_toNat_of_lt {mode : TsArith} {t : Tick} {d : BitVec 40} (h : t.toNat + d.toNat < 2 ^ 40) :
    (tsAdd mode t d).toNat = t.toNat + d.toNat := by
  rw [tsAdd_toNat]
  cases mode with
  | wrap40 => exact Nat.mod_eq_of_lt h
  | wrap64 => exact Nat.mod_eq_of_lt (h.trans (by decide))

/-- Settles O58: the instants are the clock draws plus one delay (`State.Inv.adv_instants`), which does not wrap. -/
theorem monotonicClockGivesMonotonicInstants : Obligations.MonotonicClockGivesMonotonicInstants := by
  intro s hinv hmono hlt
  have hdraws : (s.clkLog.map fun t => tsAdd s.params.tsArith t s.params.replyScheduleDelay).Pairwise
      fun t u => t.toNat ≤ u.toNat := by
    refine List.pairwise_map.mpr (List.Pairwise.imp_of_mem (fun ht hu htu => ?_) hmono)
    rw [tsAdd_toNat_of_lt (hlt _ ht), tsAdd_toNat_of_lt (hlt _ hu)]
    exact Nat.add_le_add_right htu _
  rwa [← hinv.adv_instants, List.pairwise_map] at hdraws

/-! ### Two blocks exchange an advertisement and its reply (R147, R176) -/

/-- The host's stores of a byte sequence write it (R175). -/
theorem hostStores_cellsFrom (m : Memory) (a : Nat) (bytes : List Byte) :
    hostStores m (cellsFrom a bytes) = Memory.writeBytes m a bytes := by
  induction bytes generalizing m a with
  | nil => rfl
  | cons b bs ih => exact ih (Memory.write m a b) (a + 1)

theorem System.stepAt_of_step {sys : System} {k : Nat} {s t : State} (hk : sys[k]? = some s) (h : step s = .next t) :
    System.stepAt k sys = .next (sys.set k t) := by
  simp only [System.stepAt, hk, h]

theorem System.carry_of_event {sys : System} {i n j : Nat} {s t : State} {e : TxEvent} (hi : sys[i]? = some s)
    (hn : s.txLog[n]? = some e) (hj : sys[j]? = some t) (buffer : Nat) (rx : Tick) :
    System.carry i n j buffer rx sys = sys.set j (t.deliver e buffer rx) := by
  simp only [System.carry, hi, hj, Option.bind_some, hn]

/-- In the state that takes a delivered frame, the frame stands at the start of its buffer (log 12). -/
theorem readBytes_accept_receiveCommand {e : TxEvent} {n : Nat} (h : e.bytes.length = n) (buffer : Nat) (rx : Tick)
    (rest : List Delivery) (s : State) :
    Memory.readBytes (accept (receiveCommand e buffer rx) rest s).mem
      (Attachment.region { buffer := buffer, cap := e.len }).base n = e.bytes := by
  subst h
  rw [accept_mem, receiveCommand, hostStores_cellsFrom, Memory.readBytes_writeBytes]

/-- An advertisement of its own PAN in the buffer of a READY block is answered: one reply to the advertiser, with the
embedded timestamp, the receive time and the reply's own instant (R137, R138). -/
theorem exists_reply_of_advFrame {s : State} {a : Attachment} {seq : Byte} {addr : Half} {sched : Tick} (rx : Tick)
    (hatt : s.att = some a) (hinit : s.hr.initDone = true) (hcap : 16 ≤ a.cap.toNat)
    (h : Memory.readBytes s.mem a.region.base 16 = advFrame seq s.hr.panId addr sched) :
    ∃ t, Completes s (.processRx 16 rx) t ∧ t.clkLog = s.clkLog ∧
      t.txLog = s.txLog ++ [replyEvent s.hr addr (BitVec.ofNat 64 (sched.toNat % 2 ^ 40)) rx
        (tsAdd s.params.tsArith rx s.params.replyScheduleDelay)] := by
  have hsrc : headerField s.mem a.region.base 7 = addr :=
    congrArg Decoded.src (headerOf_frameBytes (payload := tsBytes sched) h)
  have hadv : BitVec.ofNat 64 (sched.toNat % 2 ^ 40) = tsValue (Memory.readBytes s.mem (a.region.base + 9) 5) := by
    rw [← tsBytes_length sched, readBytes_payload (payload := tsBytes sched) h, ← tsValue_tsBytes_toNat,
      BitVec.ofNat_toNat, BitVec.setWidth_eq]
  obtain ⟨rb, hrb, -⟩ := buildReply_spec s.rbuf s.hr.panId addr s.hr.addr
    (BitVec.ofNat 64 (sched.toNat % 2 ^ 40)) rx (tsAdd s.params.tsArith rx s.params.replyScheduleDelay)
  exact ⟨_, .reply (len := 16) hatt hinit hcap (frameError_frameBytes (payload := tsBytes sched) h)
    ((passesFilters_frameBytes (payload := tsBytes sched) h).mpr ⟨rfl, rfl, rfl⟩) hsrc.symm hadv rfl hrb, rfl, rfl⟩

/-- A delivered SEND_ADV in READY and in a buffer of 16 bytes or more transmits one advertisement (R133). -/
theorem exists_step_sendAdv {s : State} {c : Command} {rest : List Delivery} {a : Attachment}
    (h : s.inbox = .command c :: rest) (hd : decode c.desc = .ok .sendAdv) (hatt : c.attach = some a)
    (hcap : 16 ≤ a.cap.toNat) (hinit : s.hr.initDone = true) :
    ∃ t, step s = .next t ∧ t.txLog = s.txLog ++
      [advEvent s.hr (tsAdd s.params.tsArith (nextClock s) s.params.replyScheduleDelay)] := by
  obtain ⟨m, hm, -⟩ := buildAdv_spec (r := a.region)
    (tsAdd s.params.tsArith (nextClock s) s.params.replyScheduleDelay) s.hr (hostStores s.mem c.stores) hcap
  exact ⟨_, step_of_completes h hd (.sendAdv (s := accept c rest s) hatt hinit hcap rfl hm), rfl⟩

/-- An idle READY block that is delivered an advertisement of its own PAN answers it in its next step (R137, R176). -/
theorem exists_step_deliver_adv {e : TxEvent} {seq : Byte} {addr : Half} {sched : Tick} {s : State} (buffer : Nat)
    (rx : Tick) (hidle : s.inbox = []) (hinit : s.hr.initDone = true) (hlen : e.len = 16)
    (hbytes : e.bytes = advFrame seq s.hr.panId addr sched) :
    ∃ t, step (s.deliver e buffer rx) = .next t ∧ t.clkLog = s.clkLog ∧
      t.txLog = s.txLog ++ [replyEvent s.hr addr (BitVec.ofNat 64 (sched.toNat % 2 ^ 40)) rx
        (tsAdd s.params.tsArith rx s.params.replyScheduleDelay)] := by
  have hin : (s.deliver e buffer rx).inbox = [.command (receiveCommand e buffer rx)] := congrArg (· ++ _) hidle
  have hdecode : decode (receiveCommand e buffer rx).desc = .ok (.processRx 16 rx) :=
    hlen ▸ decode_encode (.processRx e.len rx)
  have hframe := readBytes_accept_receiveCommand (hbytes ▸ advFrame_length ..) buffer rx [] (s.deliver e buffer rx)
  obtain ⟨u, hc, hclk, htx⟩ := exists_reply_of_advFrame rx (s := accept (receiveCommand e buffer rx) []
    (s.deliver e buffer rx)) rfl hinit (hlen ▸ le_rfl) (hframe.trans hbytes)
  exact ⟨_, step_of_completes hin hdecode hc, hclk, htx⟩

/-- Settles O60: the SEND_ADV transmits the event, the radio carries it over, and the responder answers it. -/
theorem twoNodesExchangeAdvertisementAndReply : Obligations.TwoNodesExchangeAdvertisementAndReply := by
  intro p q c rest a buf rx hin hdesc hatt hcap hpinit hqinit hpan hidle
  have hdecode : decode c.desc = .ok .sendAdv := hdesc ▸ decode_encode .sendAdv
  obtain ⟨p', hsend, hadv⟩ := exists_step_sendAdv hin hdecode hatt hcap hpinit
  obtain ⟨q', hanswer, hclk, hreply⟩ := exists_step_deliver_adv (e := advEvent p.hr _) buf rx hidle hqinit rfl
    (by rw [hpan]; rfl)
  refine ⟨p', q', _, _, rfl, rfl, System.stepAt_of_step rfl hsend, ?_, hadv, hreply, hclk⟩
  have hevent := congrArg (·[p.txLog.length]?) hadv
  rw [System.carry_of_event rfl (hevent.trans List.getElem?_concat_length) rfl]
  exact System.stepAt_of_step rfl hanswer

end Sys2Proof.Machine

/-! # Proofs about creation and hazards (70_reset_and_hazards.md) -/

namespace Sys2Proof.Machine

/-! ### Overlapping commands (R172, R194) -/

theorem step_of_overlapping {s : State} {c d : Command} {rest : List Delivery}
    (h : s.inbox = .overlapping c d :: rest) : step s = .refused .overlappingCommands := by
  simp only [step, h]

/-- Settles O8: the step on an overlapping pair. -/
theorem overlappingCommandsAreRefused : Obligations.OverlappingCommandsAreRefused := fun _ _ _ _ => step_of_overlapping

/-! ### The 40-bit wrap (R201) -/

/-- Across the wrap an instant scheduled from a 40-bit time is the sum less `2^40`: the sum passes `2^40` only once. -/
theorem tsAdd_wrap40_toNat_of_le {t : Tick} {d : BitVec 40} (ht : t.toNat < 2 ^ 40) (h : 2 ^ 40 ≤ t.toNat + d.toNat) :
    (tsAdd .wrap40 t d).toNat = t.toNat + d.toNat - 2 ^ 40 := by
  have hd : d.toNat < 2 ^ 40 := d.isLt
  rw [tsAdd_toNat]
  dsimp only
  rw [Nat.mod_eq_sub_mod h]
  exact Nat.mod_eq_of_lt (by omega)

/-- Settles O22: the wrapped sum is `t - (2^40 - d)`, and a 40-bit delay is below `2^40`. -/
theorem wrappedInstantIsSmaller : Obligations.WrappedInstantIsSmaller := by
  intro t d ht h
  have hd : d.toNat < 2 ^ 40 := d.isLt
  rw [tsAdd_wrap40_toNat_of_le ht h]
  omega

/-! ### What a created block shows (R190) -/

/-- Before INIT no handler register holds a value, so its read faults (R22 to R24). -/
theorem readPanId_uninit {s : State} (h : s.hr.initDone = false) : readPanId s = .error (.noValue .panId) := by
  rw [readPanId, held_uninit h, readHeld_none]

theorem readAddr_uninit {s : State} (h : s.hr.initDone = false) : readAddr s = .error (.noValue .addr) := by
  rw [readAddr, held_uninit h, readHeld_none]

theorem readSeq_uninit {s : State} (h : s.hr.initDone = false) : readSeq s = .error (.noValue .seq) := by
  rw [readSeq, held_uninit h, readHeld_none]

@[simp] theorem resultField_empty (f : Field) : resultField Result.empty f = none := by
  cases f <;> rfl

/-- Until a command has written `RES`, every read of one of its fields faults (R31). -/
theorem hostRead_of_empty {s : State} (h : s.res = Result.empty) (f : Field) : hostRead f s = .error (.noValue f) := by
  rw [hostRead, h, resultField_empty, readHeld_none]

/-- Settles O51: the control state is UNINIT and the record is empty, so every read faults. -/
theorem creationLeavesNoValueReadable : Obligations.CreationLeavesNoValueReadable := by
  intro p
  have hinit : (State.create p).hr.initDone = false := rfl
  exact ⟨hinit, readPanId_uninit hinit, readAddr_uninit hinit, readSeq_uninit hinit, hostRead_of_empty rfl,
    rfl, rfl, rfl, rfl⟩

/-- Settles O55: `State.Inv.of_started`, field by field of the created state. -/
theorem createdBlocksMeetTheInvariant : Obligations.CreatedBlocksMeetTheInvariant := fun _ _ => .of_started

end Sys2Proof.Machine
